-- ==== Sys2Proof/Word.lean ====
section
/-! DEFINITION. The word, address and field types (00_scope.md R7, R10). -/

namespace Sys2Proof

/-- A 16-bit unsigned word: register value, memory word, instruction word, PC value (R7, R10). -/
abbrev Word := BitVec 16

/-- A memory address, 0..8191: 13 bits, the width every address is reduced to before use (R7, 20_memory.md R42). -/
abbrev Addr := BitVec 13

/-- A register index, 0..7; every value names a real register (10_state.md R21, 30_encoding.md R66). -/
abbrev Reg := Fin 8

/-- The 7-bit immediate field `ins[6:0]` (30_encoding.md R64). -/
abbrev Imm7 := BitVec 7

/-- The 13-bit jump target field `ins[12:0]` (30_encoding.md R65). -/
abbrev Imm13 := BitVec 13

end Sys2Proof
end

