-- ==== Sys2Proof/Syntax.lean ====
section
/-! DEFINITION. The instructions: one constructor per row of spec/opcode_table.json (30_encoding.md R67, R68).

Every field has the type of its encoding, so every value of `Instr` is an instruction the core executes (R66, R70, R92).
Bits an instruction ignores (R70) are carried as a last field, so that an instruction stands for exactly one word
(log 10). Operand order is the assembler's: destination first, then `regA`, then `regB` (R72). -/

namespace Sys2Proof

inductive Instr where
  /-- ADD `$d, $a, $b` (41_alu_register.md R101). -/
  | add (d a b : Reg)
  /-- SUB `$d, $a, $b` (R102). -/
  | sub (d a b : Reg)
  /-- OR `$d, $a, $b` (R103). -/
  | or (d a b : Reg)
  /-- AND `$d, $a, $b` (R104). -/
  | and (d a b : Reg)
  /-- SLT `$d, $a, $b`, unsigned (R105). -/
  | slt (d a b : Reg)
  /-- JR `$a`; `ignored` is `ins[9:4]` (43_control.md R142). -/
  | jr (a : Reg) (ignored : BitVec 6)
  /-- ADDI `$d, $a, imm` (42_alu_immediate.md R120). -/
  | addi (d a : Reg) (imm : Imm7)
  /-- J `target` (43_control.md R140). -/
  | j (target : Imm13)
  /-- JAL `target` (R141). -/
  | jal (target : Imm13)
  /-- LW `$d, imm($a)` (44_load_store.md R161). -/
  | lw (d a : Reg) (imm : Imm7)
  /-- SW `$b, imm($a)` (R162). -/
  | sw (b a : Reg) (imm : Imm7)
  /-- JEQ `$a, $b, off` (43_control.md R143). -/
  | jeq (a b : Reg) (off : Imm7)
  /-- SLTI `$d, $a, imm`, unsigned (42_alu_immediate.md R121). -/
  | slti (d a : Reg) (imm : Imm7)
  /-- The reserved ADD-class sub-codes, no-operations; `ignored` is `ins[12:4]` (41_alu_register.md R106). -/
  | reservedSub0101 (ignored : BitVec 9)
  | reservedSub0110 (ignored : BitVec 9)
  | reservedSub0111 (ignored : BitVec 9)
  | reservedSub1001 (ignored : BitVec 9)
  | reservedSub1010 (ignored : BitVec 9)
  | reservedSub1011 (ignored : BitVec 9)
  | reservedSub1100 (ignored : BitVec 9)
  | reservedSub1101 (ignored : BitVec 9)
  | reservedSub1110 (ignored : BitVec 9)
  | reservedSub1111 (ignored : BitVec 9)
  deriving DecidableEq, Repr

end Sys2Proof
end

