-- ==== Sys2Proof/WellFormed.lean ====
section
/-! DEFINITION. Source instructions with plain numeric operands, as the assembler accepts them (30_encoding.md R72 to
R74), and the checks of those operands. A value of `Instr` needs no check: its field types admit exactly the encodable
values, and every word executes (R66, R70, R92). The assembler is host tooling (R73, log 15). -/

namespace Sys2Proof

/-- One line of assembly, operands in the assembler's order (R72), with the pseudo-instructions of R74. -/
inductive Source where
  | add (d a b : Nat)
  | sub (d a b : Nat)
  | or (d a b : Nat)
  | and (d a b : Nat)
  | slt (d a b : Nat)
  | jr (a : Nat)
  | addi (d a : Nat) (imm : Int)
  | j (target : Nat)
  | jal (target : Nat)
  | lw (d : Nat) (imm : Int) (a : Nat)
  | sw (b : Nat) (imm : Int) (a : Nat)
  | jeq (a b : Nat) (off : Int)
  /-- JEQ whose offset is a label, here the label's address (R73); below 8192 (log 19). -/
  | jeqLabel (a b target : Nat)
  | slti (d a : Nat) (imm : Int)
  /-- `HALT`: `J <its own address>` (R74). -/
  | halt
  /-- `NOP`: `ADD $0, $0, $0` (R74). -/
  | nop
  /-- `MOVI $d, imm`: `ADDI $d, $0, imm` (R74). -/
  | movi (d : Nat) (imm : Int)
  /-- `.fill v`: the data word `v` (R74). -/
  | fill (v : Int)
  deriving DecidableEq, Repr

/-- A register is `$0` to `$7` (R72, R66). -/
def regOk (n : Nat) : Bool := decide (n < 8)

/-- A signed number from -64 to 63, or 64 to 127 as the raw 7-bit pattern (R73). -/
def imm7Ok (v : Int) : Bool := decide (-64 ≤ v ∧ v ≤ 127)

/-- A jump target is a number from 0 to 8191 (R73). -/
def targetOk (t : Nat) : Bool := decide (t < 8192)

/-- The offset a label of JEQ assembles to: `target - (address_of_JEQ + 1)` (R73). -/
def labelOffset (site target : Nat) : Int := (target : Int) - ((site : Int) + 1)

/-- The offset of a label must lie in -64..63 (R73). -/
def labelOffsetOk (site target : Nat) : Bool :=
  decide (-64 ≤ labelOffset site target ∧ labelOffset site target ≤ 63)

/-- The data word of `.fill`: 0 to 65535 or -32768 to -1 (R74). -/
def fillOk (v : Int) : Bool := decide (-32768 ≤ v ∧ v ≤ 65535)

/-- A source line placed at address `site` is well formed: "A value out of range is an assembly error" (R73).
DESIGN CHOICE (log 19): a label of JEQ must stand below 8192, as one of J and JAL must. R73 bounds only the offset of a
label of JEQ, and leaves open whether a JEQ at 8191 may name the end label 8192, offset 0. -/
def Source.wellFormed (site : Nat) : Source → Bool
  | .add d a b => regOk d && regOk a && regOk b
  | .sub d a b => regOk d && regOk a && regOk b
  | .or d a b => regOk d && regOk a && regOk b
  | .and d a b => regOk d && regOk a && regOk b
  | .slt d a b => regOk d && regOk a && regOk b
  | .jr a => regOk a
  | .addi d a imm => regOk d && regOk a && imm7Ok imm
  | .j target => targetOk target
  | .jal target => targetOk target
  | .lw d imm a => regOk d && imm7Ok imm && regOk a
  | .sw b imm a => regOk b && imm7Ok imm && regOk a
  | .jeq a b off => regOk a && regOk b && imm7Ok off
  | .jeqLabel a b target => regOk a && regOk b && targetOk target && labelOffsetOk site target
  | .slti d a imm => regOk d && regOk a && imm7Ok imm
  | .halt => targetOk site
  | .nop => true
  | .movi d imm => regOk d && imm7Ok imm
  | .fill v => fillOk v

end Sys2Proof
end

