-- ==== Sys2Proof/Decode.lean ====
section
/-! DEFINITION. The decoder (30_encoding.md R60 to R71, 40_cycle.md R82, R92), the encoder, and the assembler of
source lines (R72 to R74). -/

namespace Sys2Proof

/-- The one decode failure the source names (30_encoding.md R71, 60_exceptions.md R181). No word reaches it. -/
inductive DecodeError where
  /-- "an opcode value outside the defined set"; a 3-bit field cannot hold one. -/
  | opcodeOutsideDefinedSet
  deriving DecidableEq, Repr

/-- What the decoder answers for a word. -/
inductive Decoded where
  | ok (i : Instr)
  | reject (why : DecodeError)
  deriving DecidableEq, Repr

/-- `ins[15:13]` (R60). -/
def opcodeOf (ins : Word) : BitVec 3 := ins.extractLsb' 13 3

/-- `regA = ins[12:10]` (R61, R62). -/
def regAOf (ins : Word) : Reg := (ins.extractLsb' 10 3).toFin

/-- `ins[9:7]`: `regB` in the ADD class, SW and JEQ; `regDst` in ADDI, LW and SLTI (R61, R62). -/
def regBOf (ins : Word) : Reg := (ins.extractLsb' 7 3).toFin

/-- `regDst = ins[6:4]` of the ADD class (R61). -/
def regDstOf (ins : Word) : Reg := (ins.extractLsb' 4 3).toFin

/-- `sub = ins[3:0]` (R61). -/
def subOf (ins : Word) : BitVec 4 := ins.extractLsb' 0 4

/-- `imm7 = ins[6:0]` (R62, R64). -/
def imm7Of (ins : Word) : Imm7 := ins.extractLsb' 0 7

/-- `imm13 = ins[12:0]` (R63, R65). -/
def imm13Of (ins : Word) : Imm13 := ins.extractLsb' 0 13

/-- `ins[9:4]`, the bits JR ignores (R70). -/
def jrIgnoredOf (ins : Word) : BitVec 6 := ins.extractLsb' 4 6

/-- `ins[12:4]`, the bits a reserved sub-code ignores (R70). -/
def subIgnoredOf (ins : Word) : BitVec 9 := ins.extractLsb' 4 9

/-- The ADD-class sub-opcode map (R68). The last arm is the sub-code 1111, the one value of 4 bits the others leave. -/
def decodeAddClass (ins : Word) : Instr :=
  match (subOf ins).toNat with
  | 0 => .add (regDstOf ins) (regAOf ins) (regBOf ins)
  | 1 => .sub (regDstOf ins) (regAOf ins) (regBOf ins)
  | 2 => .or (regDstOf ins) (regAOf ins) (regBOf ins)
  | 3 => .and (regDstOf ins) (regAOf ins) (regBOf ins)
  | 4 => .slt (regDstOf ins) (regAOf ins) (regBOf ins)
  | 5 => .reservedSub0101 (subIgnoredOf ins)
  | 6 => .reservedSub0110 (subIgnoredOf ins)
  | 7 => .reservedSub0111 (subIgnoredOf ins)
  | 8 => .jr (regAOf ins) (jrIgnoredOf ins)
  | 9 => .reservedSub1001 (subIgnoredOf ins)
  | 10 => .reservedSub1010 (subIgnoredOf ins)
  | 11 => .reservedSub1011 (subIgnoredOf ins)
  | 12 => .reservedSub1100 (subIgnoredOf ins)
  | 13 => .reservedSub1101 (subIgnoredOf ins)
  | 14 => .reservedSub1110 (subIgnoredOf ins)
  | _ => .reservedSub1111 (subIgnoredOf ins)

/-- The opcode map (R67). The last arm is the defensive branch of 40_cycle.md R92; no word reaches it. -/
def decode (ins : Word) : Decoded :=
  match (opcodeOf ins).toNat with
  | 0 => .ok (decodeAddClass ins)
  | 1 => .ok (.addi (regBOf ins) (regAOf ins) (imm7Of ins))
  | 2 => .ok (.j (imm13Of ins))
  | 3 => .ok (.jal (imm13Of ins))
  | 4 => .ok (.lw (regBOf ins) (regAOf ins) (imm7Of ins))
  | 5 => .ok (.sw (regBOf ins) (regAOf ins) (imm7Of ins))
  | 6 => .ok (.jeq (regAOf ins) (regBOf ins) (imm7Of ins))
  | 7 => .ok (.slti (regBOf ins) (regAOf ins) (imm7Of ins))
  | _ => .reject .opcodeOutsideDefinedSet

/-- The 3 bits of a register field (R66). -/
def regBits (r : Reg) : BitVec 3 := BitVec.ofFin r

/-- Format RRR (R61). -/
def encodeRRR (a b d : Reg) (sub : BitVec 4) : Word := 0b000#3 ++ regBits a ++ regBits b ++ regBits d ++ sub

/-- Format RRR of a reserved sub-code: bits 12..4 ignored (R70). -/
def encodeReserved (ignored : BitVec 9) (sub : BitVec 4) : Word := 0b000#3 ++ ignored ++ sub

/-- Format RRI (R62): `r` is the field `ins[9:7]`. -/
def encodeRRI (opcode : BitVec 3) (a r : Reg) (imm : Imm7) : Word := opcode ++ regBits a ++ regBits r ++ imm

/-- Format J (R63). -/
def encodeJ (opcode : BitVec 3) (target : Imm13) : Word := opcode ++ target

/-- The word of an instruction (R61 to R63, R67, R68). -/
def encode : Instr → Word
  | .add d a b => encodeRRR a b d 0b0000#4
  | .sub d a b => encodeRRR a b d 0b0001#4
  | .or d a b => encodeRRR a b d 0b0010#4
  | .and d a b => encodeRRR a b d 0b0011#4
  | .slt d a b => encodeRRR a b d 0b0100#4
  | .jr a ignored => 0b000#3 ++ regBits a ++ ignored ++ 0b1000#4
  | .addi d a imm => encodeRRI 0b001#3 a d imm
  | .j target => encodeJ 0b010#3 target
  | .jal target => encodeJ 0b011#3 target
  | .lw d a imm => encodeRRI 0b100#3 a d imm
  | .sw b a imm => encodeRRI 0b101#3 a b imm
  | .jeq a b off => encodeRRI 0b110#3 a b off
  | .slti d a imm => encodeRRI 0b111#3 a d imm
  | .reservedSub0101 ignored => encodeReserved ignored 0b0101#4
  | .reservedSub0110 ignored => encodeReserved ignored 0b0110#4
  | .reservedSub0111 ignored => encodeReserved ignored 0b0111#4
  | .reservedSub1001 ignored => encodeReserved ignored 0b1001#4
  | .reservedSub1010 ignored => encodeReserved ignored 0b1010#4
  | .reservedSub1011 ignored => encodeReserved ignored 0b1011#4
  | .reservedSub1100 ignored => encodeReserved ignored 0b1100#4
  | .reservedSub1101 ignored => encodeReserved ignored 0b1101#4
  | .reservedSub1110 ignored => encodeReserved ignored 0b1110#4
  | .reservedSub1111 ignored => encodeReserved ignored 0b1111#4

/-- A word given as a number of `nbits` bits, the bits above them zero. -/
def tableWord (nbits w : Nat) : Word := BitVec.ofNat 16 (w % 2 ^ nbits)

/-- The instruction the decoder reads from a row of spec/opcode_table.json filled in as `w`. An instruction is one
16-bit word (R60), so a longer row is none (log 18). -/
def decodeTableWord (nbits w : Nat) : Option Instr :=
  if nbits ≤ 16 then
    match decode (tableWord nbits w) with
    | .ok i => some i
    | .reject _ => none
  else none

/-- The low 3 bits of a register number; `Source.wellFormed` says it is below 8. -/
def regOfNat (n : Nat) : Reg := Fin.ofNat 8 n

/-- "The assembler stores its low 7 bits" (R73). -/
def imm7OfInt (v : Int) : Imm7 := BitVec.ofInt 7 v

/-- The instruction a source line at address `site` assembles to; none for a data word (R72 to R74). The assembler
writes 0 into the fields JR ignores (R72). -/
def Source.instr (site : Nat) : Source → Option Instr
  | .add d a b => some (.add (regOfNat d) (regOfNat a) (regOfNat b))
  | .sub d a b => some (.sub (regOfNat d) (regOfNat a) (regOfNat b))
  | .or d a b => some (.or (regOfNat d) (regOfNat a) (regOfNat b))
  | .and d a b => some (.and (regOfNat d) (regOfNat a) (regOfNat b))
  | .slt d a b => some (.slt (regOfNat d) (regOfNat a) (regOfNat b))
  | .jr a => some (.jr (regOfNat a) 0#6)
  | .addi d a imm => some (.addi (regOfNat d) (regOfNat a) (imm7OfInt imm))
  | .j target => some (.j (BitVec.ofNat 13 target))
  | .jal target => some (.jal (BitVec.ofNat 13 target))
  | .lw d imm a => some (.lw (regOfNat d) (regOfNat a) (imm7OfInt imm))
  | .sw b imm a => some (.sw (regOfNat b) (regOfNat a) (imm7OfInt imm))
  | .jeq a b off => some (.jeq (regOfNat a) (regOfNat b) (imm7OfInt off))
  | .jeqLabel a b target => some (.jeq (regOfNat a) (regOfNat b) (imm7OfInt (labelOffset site target)))
  | .slti d a imm => some (.slti (regOfNat d) (regOfNat a) (imm7OfInt imm))
  | .halt => some (.j (BitVec.ofNat 13 site))
  | .nop => some (.add 0 0 0)
  | .movi d imm => some (.addi (regOfNat d) 0 (imm7OfInt imm))
  | .fill _ => none

/-- The word of `.fill v`, "placed as is" (R74); 0 for a line that is no data word. -/
def Source.dataWord : Source → Word
  | .fill v => BitVec.ofInt 16 v
  | _ => 0#16

/-- The word a source line at address `site` assembles to; none is an assembly error (R73). -/
def assemble (site : Nat) (l : Source) : Option Word :=
  if l.wellFormed site then
    match l.instr site with
    | some i => some (encode i)
    | none => some l.dataWord
  else none

end Sys2Proof
end

