-- ==== Sys2Proof/Config.lean ====
section
/-! DEFINITION. The fixed parameters of the core (00_scope.md R7) and the one reading the spec names as a
parameter (R8). The spec leaves no value of the core open, so there is no free value here. -/

namespace Sys2Proof.Config

/-- `MEM_WORDS`: memory size in words (R7). -/
abbrev memWords : Nat := 8192

/-- `ZERO_REG`: the register that always reads 0 (R7). -/
abbrev zeroReg : Reg := 0

/-- `LINK_REG`: the register JAL writes (R7). -/
abbrev linkReg : Reg := 7

/-- `RESET_PC` (R7). -/
abbrev resetPc : Word := 0#16

/-- `HALT_CMP_WRAPS_CURRENT` (R8, 40_cycle.md R87, 92_eei_decisions.md D4): whether the halt comparison also reduces
`current_pc` modulo 8192. The spec fixes it to "no", the literal formula. DESIGN CHOICE of the spec's, unsafe
(log 4). The detector itself (`Machine.haltDetect`) takes it as an argument. -/
def haltCmpWrapsCurrent : Bool := false

end Sys2Proof.Config
end

