-- ==== Sys2Proof/Machine/Flags.lean ====
section
/-! DEFINITION. The core has no flags (10_state.md R28). The two one-bit results it computes are the unsigned
comparison SLT and SLTI write into a register, and the output of the halt detector. -/

namespace Sys2Proof.Machine

/-- `if v < w then 1 else 0`, unsigned (00_scope.md R10, 41_alu_register.md R105). -/
def setIfLess (v w : Word) : Word := if v.toNat < w.toNat then 1#16 else 0#16

/-- The halt detector (40_cycle.md R86, R87): `(next_pc mod 8192) == current_pc`; with `wraps`, the alternative reading
`HALT_CMP_WRAPS_CURRENT`, `current_pc` is reduced as well. -/
def haltDetect (wraps : Bool) (currentPc nextPc : Word) : Bool :=
  nextPc.toNat % 8192 == (if wraps then currentPc.toNat % 8192 else currentPc.toNat)

end Sys2Proof.Machine
end

