-- ==== Sys2Proof/Machine/Operands.lean ====
section
/-! DEFINITION. The operand forms: immediates, addresses and PC arithmetic. -/

namespace Sys2Proof.Machine

/-- `sext_7` (00_scope.md R11): if bit 6 is 1, bits 7 to 15 become 1; otherwise zero-extended. -/
def sext7 (imm : Imm7) : Word :=
  if imm.getLsbD 6 then imm.setWidth 16 ||| 0xFF80#16 else imm.setWidth 16

/-- `zext_13` (R11, 30_encoding.md R65). -/
def zext13 (target : Imm13) : Word := target.setWidth 16

/-- `v & 0x1FFF` as a 13-bit address (00_scope.md R10, 20_memory.md R42). -/
def reduceAddr (v : Word) : Addr := v.setWidth 13

/-- The fetch address `pc mod 8192` (20_memory.md R42, 40_cycle.md R81). -/
def fetchAddr (pc : Word) : Addr := reduceAddr pc

/-- The effective address `(base + sext_7(imm7)) & 0x1FFF` (44_load_store.md R160). -/
def effectiveAddr (base : Word) (imm : Imm7) : Addr := reduceAddr (base + sext7 imm)

/-- The default `next_pc`, `(current_pc + 1) & 0xFFFF` (40_cycle.md R83; the mask is 90_conflicts.md C1, log 7). -/
def fallThrough (currentPc : Word) : Word := currentPc + 1#16

/-- The target of a taken JEQ, `(current_pc + 1 + sext_7(imm7)) & 0xFFFF` (43_control.md R143). -/
def branchTarget (currentPc : Word) (off : Imm7) : Word := currentPc + 1#16 + sext7 off

/-- The target of JR, `x[regA] & 0x1FFF` (43_control.md R142). -/
def jrTarget (v : Word) : Word := v &&& 0x1FFF#16

end Sys2Proof.Machine
end

