-- ==== Sys2Proof/Machine/State.lean ====
section
/-! DEFINITION. The state of the core as one plain value (10_state.md R20), its reset value (R33), and the reasons a
step can stop. -/

namespace Sys2Proof.Machine

/-- The listed words of the unified memory, by address (20_memory.md R40, R41). An unlisted word reads as 0, the reset
contents (10_state.md R33). The cell is the whole 16-bit word: the core has no byte view (R41, D14; log 1, log 2). -/
abbrev Memory := List (Nat × Word)

/-- The whole state (R20). `ins`, `current_pc` and `next_pc` exist only inside a step (R32). -/
structure State where
  /-- The general registers (R21). -/
  x : Vector Word 8
  /-- The program counter, unreduced (R26). -/
  pc : Word
  /-- The unified memory (20_memory.md R40). -/
  mem : Memory
  /-- The output of the halt detector (R29). -/
  halted : Bool
  deriving DecidableEq, Repr

/-- The faults a step can end in. -/
inductive Fault where
  /-- Raised by `step` on a halted core: no step is enabled until reset (40_cycle.md R80, R89; U9 "stuck"). Safe (log 5). -/
  | halted
  /-- Raised by `step` when the decoder rejects the fetched word; records `current_pc` (60_exceptions.md R181). No word
  is rejected, so no step raises it. Safe (log 6). -/
  | decodeError (pc : Word)
  deriving DecidableEq, Repr

/-- The refusals a step can end in. -/
inductive Refusal where
  /-- For an instruction with no meaning yet. Every instruction has its meaning, so nothing raises it. Safe. -/
  | notModelled (mnemonic : String)
  deriving DecidableEq, Repr

/-- The process-start state (10_state.md R33, 70_reset_and_hazards.md R200). -/
def State.reset : State :=
  { x := Vector.replicate 8 0#16, pc := Config.resetPc, mem := [], halted := false }

end Sys2Proof.Machine
end

