-- ==== Sys2Proof/Machine/Ops.lean ====
section
/-! DEFINITION. The shared operations: the memory's word read and write, the register ports, Commit, and the three
ways an instruction ends in it. There is no operation that takes an exception or returns from one: the core has no
trap entry and no trap return (60_exceptions.md R180, R185, R186). -/

namespace Sys2Proof.Machine

/-- The word at address `a`; an unlisted word reads as 0 (10_state.md R33, log 2). -/
def Memory.read : Memory → Nat → Word
  | [], _ => 0#16
  | (b, w) :: m, a => if a = b then w else Memory.read m a

/-- The listing of one word: nothing for the value an unlisted word reads as. -/
def Memory.entry (a : Nat) (v : Word) : Memory := if v = 0#16 then [] else [(a, v)]

/-- Word `a` becomes `v`; keeps the canonical form. -/
def Memory.write : Memory → Nat → Word → Memory
  | [], a, v => Memory.entry a v
  | (b, w) :: m, a, v =>
    if a < b then Memory.entry a v ++ (b, w) :: m
    else if a = b then Memory.entry a v ++ m
    else (b, w) :: Memory.write m a v

/-- The canonical form from address `lo` on: strictly rising addresses below 8192, no entry equal to 0. -/
def Memory.wfFrom : Nat → Memory → Bool
  | _, [] => true
  | lo, (a, v) :: m => decide (lo ≤ a) && decide (a < 8192) && decide (v ≠ 0#16) && Memory.wfFrom (a + 1) m

/-- The canonical form of a memory: equal memories are equal lists. -/
def Memory.wf (m : Memory) : Bool := Memory.wfFrom 0 m

/-- `MemRead(a, 1)` (00_scope.md R12, 20_memory.md R44). -/
def State.readMem (s : State) (a : Addr) : Word := s.mem.read a.toNat

/-- `MemWrite(a, 1, v)` (00_scope.md R12, 20_memory.md R44, R45). -/
def State.writeMem (s : State) (a : Addr) (v : Word) : State := { s with mem := s.mem.write a.toNat v }

/-- The register read port, `x[i]`; register 0 always reads 0 (00_scope.md R12, 10_state.md R22; log 3). -/
def State.readReg (s : State) (r : Reg) : Word := if r = Config.zeroReg then 0#16 else s.x[r]

/-- The register write port, `x[d] <- v`: a write to index 0 is discarded (40_cycle.md R85). -/
def State.writeReg (s : State) (d : Reg) (v : Word) : State :=
  if d = Config.zeroReg then s else { s with x := s.x.set d v }

/-- Commit (40_cycle.md R86), under either reading of the halt comparison: `x[0]` is zeroed, the halt detector compares
`next_pc` with `current_pc` (still in `pc`), and `pc` becomes `next_pc`, not reduced modulo 8192. -/
def commitWith (wraps : Bool) (nextPc : Word) (s : State) : State :=
  { s with x := s.x.set Config.zeroReg 0#16, halted := haltDetect wraps s.pc nextPc, pc := nextPc }

/-- Commit as the spec fixes it (00_scope.md R8, 40_cycle.md R87). -/
def commit (nextPc : Word) (s : State) : State := commitWith Config.haltCmpWrapsCurrent nextPc s

/-- The end of an instruction that keeps the default `next_pc` (40_cycle.md R83), after its effect. -/
def retire (s : State) : Host.Outcome State Fault Refusal := .next (commit (fallThrough s.pc) s)

/-- The end of an instruction that writes one register and keeps the default `next_pc`. -/
def writeBack (d : Reg) (v : Word) (s : State) : Host.Outcome State Fault Refusal := retire (s.writeReg d v)

/-- The end of an instruction that replaces `next_pc` (40_cycle.md R83). -/
def jumpTo (target : Word) (s : State) : Host.Outcome State Fault Refusal := .next (commit target s)

end Sys2Proof.Machine
end

