-- ==== Sys2Proof/Machine/AluImmediate.lean ====
section
/-! DEFINITION. The register-immediate ALU instructions (42_alu_immediate.md R120, R121). -/

namespace Sys2Proof.Machine

/-- `x[regDst] <- (x[regA] + sext_7(imm7)) & 0xFFFF` (R120). -/
def execAddi (d a : Reg) (imm : Imm7) (s : State) : Host.Outcome State Fault Refusal :=
  writeBack d (s.readReg a + sext7 imm) s

/-- `x[regDst] <- (if x[regA] < sext_7(imm7) then 1 else 0)`, unsigned on the sign-extended immediate (R121, C6). -/
def execSlti (d a : Reg) (imm : Imm7) (s : State) : Host.Outcome State Fault Refusal :=
  writeBack d (setIfLess (s.readReg a) (sext7 imm)) s

end Sys2Proof.Machine
end

