-- ==== Sys2Proof/Machine/AluRegister.lean ====
section
/-! DEFINITION. The ADD-class register-register ALU instructions (41_alu_register.md R100 to R105). Operands are read
from the state at the start of the step (40_cycle.md R84, log 12). -/

namespace Sys2Proof.Machine

/-- `x[regDst] <- (va + vb) & 0xFFFF` (R101). -/
def execAdd (d a b : Reg) (s : State) : Host.Outcome State Fault Refusal :=
  writeBack d (s.readReg a + s.readReg b) s

/-- `x[regDst] <- (va - vb) & 0xFFFF` (R102). -/
def execSub (d a b : Reg) (s : State) : Host.Outcome State Fault Refusal :=
  writeBack d (s.readReg a - s.readReg b) s

/-- `x[regDst] <- va | vb` (R103). -/
def execOr (d a b : Reg) (s : State) : Host.Outcome State Fault Refusal :=
  writeBack d (s.readReg a ||| s.readReg b) s

/-- `x[regDst] <- va & vb` (R104). -/
def execAnd (d a b : Reg) (s : State) : Host.Outcome State Fault Refusal :=
  writeBack d (s.readReg a &&& s.readReg b) s

/-- `x[regDst] <- (if va < vb then 1 else 0)`, unsigned (R105). -/
def execSlt (d a b : Reg) (s : State) : Host.Outcome State Fault Refusal :=
  writeBack d (setIfLess (s.readReg a) (s.readReg b)) s

end Sys2Proof.Machine
end

