-- ==== Sys2Proof/Machine/Control.lean ====
section
/-! DEFINITION. Control transfer (43_control.md R140 to R143). No delay slot and no alignment (R144). -/

namespace Sys2Proof.Machine

/-- `next_pc <- ins[12:0]` (R140). -/
def execJ (target : Imm13) (s : State) : Host.Outcome State Fault Refusal :=
  jumpTo (zext13 target) s

/-- `x[7] <- (current_pc + 1) & 0xFFFF; next_pc <- ins[12:0]` (R141). The link goes through the write port (R85). -/
def execJal (target : Imm13) (s : State) : Host.Outcome State Fault Refusal :=
  jumpTo (zext13 target) (s.writeReg Config.linkReg (fallThrough s.pc))

/-- `next_pc <- x[regA] & 0x1FFF` (R142). -/
def execJr (a : Reg) (s : State) : Host.Outcome State Fault Refusal :=
  jumpTo (jrTarget (s.readReg a)) s

/-- If `x[regA] == x[regB]`, `next_pc <- (current_pc + 1 + sext_7(imm7)) & 0xFFFF`; otherwise the default (R143). -/
def execJeq (a b : Reg) (off : Imm7) (s : State) : Host.Outcome State Fault Refusal :=
  if s.readReg a = s.readReg b then jumpTo (branchTarget s.pc off) s else retire s

end Sys2Proof.Machine
end

