-- ==== Sys2Proof/Machine/LoadStore.lean ====
section
/-! DEFINITION. Loads and stores (44_load_store.md R160 to R162). -/

namespace Sys2Proof.Machine

/-- `x[regDst] <- MemRead(ea, 1)` (R161). -/
def execLw (d a : Reg) (imm : Imm7) (s : State) : Host.Outcome State Fault Refusal :=
  writeBack d (s.readMem (effectiveAddr (s.readReg a) imm)) s

/-- `MemWrite(ea, 1, x[regB])`, unconditional (R162). -/
def execSw (b a : Reg) (imm : Imm7) (s : State) : Host.Outcome State Fault Refusal :=
  retire (s.writeMem (effectiveAddr (s.readReg a) imm) (s.readReg b))

end Sys2Proof.Machine
end

