-- ==== Sys2Proof/Machine/Reserved.lean ====
section
/-! DEFINITION. The ten reserved ADD-class sub-codes: defined no-operations, with every field ignored
(41_alu_register.md R106, 30_encoding.md R69, R70). Each has a definition of its own. -/

namespace Sys2Proof.Machine

/-- Sub-code 0101: nothing is written, `next_pc` stays the default (R106). -/
def execReservedSub0101 (s : State) : Host.Outcome State Fault Refusal := retire s

/-- Sub-code 0110: nothing is written, `next_pc` stays the default (R106). -/
def execReservedSub0110 (s : State) : Host.Outcome State Fault Refusal := retire s

/-- Sub-code 0111: nothing is written, `next_pc` stays the default (R106). -/
def execReservedSub0111 (s : State) : Host.Outcome State Fault Refusal := retire s

/-- Sub-code 1001: nothing is written, `next_pc` stays the default (R106). -/
def execReservedSub1001 (s : State) : Host.Outcome State Fault Refusal := retire s

/-- Sub-code 1010: nothing is written, `next_pc` stays the default (R106). -/
def execReservedSub1010 (s : State) : Host.Outcome State Fault Refusal := retire s

/-- Sub-code 1011: nothing is written, `next_pc` stays the default (R106). -/
def execReservedSub1011 (s : State) : Host.Outcome State Fault Refusal := retire s

/-- Sub-code 1100: nothing is written, `next_pc` stays the default (R106). -/
def execReservedSub1100 (s : State) : Host.Outcome State Fault Refusal := retire s

/-- Sub-code 1101: nothing is written, `next_pc` stays the default (R106). -/
def execReservedSub1101 (s : State) : Host.Outcome State Fault Refusal := retire s

/-- Sub-code 1110: nothing is written, `next_pc` stays the default (R106). -/
def execReservedSub1110 (s : State) : Host.Outcome State Fault Refusal := retire s

/-- Sub-code 1111: nothing is written, `next_pc` stays the default (R106). -/
def execReservedSub1111 (s : State) : Host.Outcome State Fault Refusal := retire s

end Sys2Proof.Machine
end

