-- ==== Sys2Proof/Machine/Dispatch.lean ====
section
/-! DEFINITION. One arm per constructor of Instr, each one direct call of its meaning. -/

namespace Sys2Proof.Machine

def exec (i : Instr) (s : State) : Host.Outcome State Fault Refusal :=
  match i with
  | .add d a b => Sys2Proof.Machine.execAdd d a b s
  | .sub d a b => Sys2Proof.Machine.execSub d a b s
  | .or d a b => Sys2Proof.Machine.execOr d a b s
  | .and d a b => Sys2Proof.Machine.execAnd d a b s
  | .slt d a b => Sys2Proof.Machine.execSlt d a b s
  | .jr a _ => Sys2Proof.Machine.execJr a s
  | .addi d a imm => Sys2Proof.Machine.execAddi d a imm s
  | .j target => Sys2Proof.Machine.execJ target s
  | .jal target => Sys2Proof.Machine.execJal target s
  | .lw d a imm => Sys2Proof.Machine.execLw d a imm s
  | .sw b a imm => Sys2Proof.Machine.execSw b a imm s
  | .jeq a b off => Sys2Proof.Machine.execJeq a b off s
  | .slti d a imm => Sys2Proof.Machine.execSlti d a imm s
  | .reservedSub0101 _ => Sys2Proof.Machine.execReservedSub0101 s
  | .reservedSub0110 _ => Sys2Proof.Machine.execReservedSub0110 s
  | .reservedSub0111 _ => Sys2Proof.Machine.execReservedSub0111 s
  | .reservedSub1001 _ => Sys2Proof.Machine.execReservedSub1001 s
  | .reservedSub1010 _ => Sys2Proof.Machine.execReservedSub1010 s
  | .reservedSub1011 _ => Sys2Proof.Machine.execReservedSub1011 s
  | .reservedSub1100 _ => Sys2Proof.Machine.execReservedSub1100 s
  | .reservedSub1101 _ => Sys2Proof.Machine.execReservedSub1101 s
  | .reservedSub1110 _ => Sys2Proof.Machine.execReservedSub1110 s
  | .reservedSub1111 _ => Sys2Proof.Machine.execReservedSub1111 s

end Sys2Proof.Machine
end

