-- ==== Sys2Proof/Machine/Fetch.lean ====
section
/-! DEFINITION. Fetch (40_cycle.md R81) and Decode of the fetched word (R82). -/

namespace Sys2Proof.Machine

/-- `ins <- MemRead(pc mod 8192, 1)` (R81). -/
def State.fetch (s : State) : Word := s.readMem (fetchAddr s.pc)

/-- The fetched word, decoded; Decode has no effect on state (R82). -/
def State.fetchDecode (s : State) : Decoded := decode s.fetch

/-- The state whose next step fetches `ins`: the word is stored where the fetch reads, and the core is not halted, since a
halted core fetches nothing (log 9). -/
def State.placeWord (s : State) (ins : Word) : State := { s.writeMem (fetchAddr s.pc) ins with halted := false }

end Sys2Proof.Machine
end

