-- ==== Sys2Proof/Machine/Step.lean ====
section
/-! DEFINITION. One step of the core: Fetch, Decode, Execute, Commit (40_cycle.md R80, R91). -/

namespace Sys2Proof.Machine

/-- The step. It is enabled only when `halted == false` (R80); a halted core is stuck (R89, log 5). A rejected word would
raise the decode error with `current_pc` (60_exceptions.md R181, log 6). -/
def step (s : State) : Host.Outcome State Fault Refusal :=
  if s.halted then .fault .halted
  else
    match s.fetchDecode with
    | .ok i => exec i s
    | .reject _ => .fault (.decodeError s.pc)

/-- The state whose very next step runs the instruction whose bits are `w` (log 9, log 18). -/
def State.withFetchWord (s : State) (nbits w : Nat) : State := s.placeWord (tableWord nbits w)

end Sys2Proof.Machine
end

