-- ==== Sys2Proof/Machine/HostInterface.lean ====
section
/-! DEFINITION. What the host does to the core (70_reset_and_hazards.md R200 to R205): the image check and load before
the first step, and the read of the final state after the halt. The core takes no part in it (00_scope.md R6, log 11). -/

namespace Sys2Proof.Machine

/-- The value of a binary literal read from its leftmost character on, after the digits read so far. -/
def literalValue : Nat → List Char → Option Nat
  | acc, [] => some acc
  | acc, c :: cs =>
    if c = '0' then literalValue (2 * acc) cs
    else if c = '1' then literalValue (2 * acc + 1) cs
    else none

/-- The word of "a 16-character binary literal", its leftmost character bit 15 (20_memory.md R41, R203; log 16). -/
def wordOfLiteral (cs : List Char) : Option Word :=
  if cs.length = 16 then (literalValue 0 cs).map (BitVec.ofNat 16) else none

/-- The image check from address `n` on: addresses increase by 1 with no gaps, and stay within memory (R203). -/
def acceptFrom : Nat → List (Nat × Word) → Option (List Word)
  | _, [] => some []
  | n, (a, w) :: rest =>
    if a = n ∧ n < Config.memWords then (acceptFrom (n + 1) rest).map (fun ws => w :: ws) else none

/-- The image check (R203): "in strictly increasing sequence starting at 0, incrementing by 1 per line, with no gaps",
at most 8192 words. None is a load error (60_exceptions.md R182): the core is never started. -/
def acceptImage (lines : List (Nat × Word)) : Option (List Word) := acceptFrom 0 lines

/-- Word `i` of the image goes to address `n + i`. -/
def State.loadFrom (n : Nat) (image : List Word) (s : State) : State :=
  match image with
  | [] => s
  | w :: ws => State.loadFrom (n + 1) ws (s.writeMem (BitVec.ofNat 13 n) w)

/-- The image load (R202): `mem[i] <- image[i]` for `i < n`, nothing else; `0 ≤ n ≤ 8192`. -/
def State.loadImage (s : State) (image : List Word) : Option State :=
  if image.length ≤ Config.memWords then some (State.loadFrom 0 image s) else none

/-- Reset, then the image load (R201). None when the host rejects the image: the core takes no step (R203). -/
def State.boot (lines : List (Nat × Word)) : Option State :=
  match acceptImage lines with
  | some image => State.reset.loadImage image
  | none => none

/-- What the host reads at the end of the run (R205). -/
structure Report where
  pc : Word
  regs : List Word
  mem : List Word
  deriving DecidableEq, Repr

/-- The read of the final state (R202, R205): only after the halt; `k` is the host's display count, `k ≤ 8192` (D13). -/
def finalReport (k : Nat) (s : State) : Option Report :=
  if s.halted ∧ k ≤ Config.memWords then
    some { pc := s.pc, regs := (List.finRange 8).map s.readReg, mem := (List.range k).map s.mem.read }
  else none

end Sys2Proof.Machine
end

