-- ==== Sys2Proof/Safety.lean ====
section
/-! DEFINITION. The terms the claims are stated in: the invariant, what a step may change, when the halt detector fires,
when a run ends, and the step of 40_cycle.md R91 over numbers. -/

namespace Sys2Proof.Machine

/-- The invariant of every completed cycle: `x[0] == 0` (10_state.md R34), the memory in canonical form (log 2), and a
halted core's `pc` below 8192 (70_reset_and_hazards.md R205). That every register, memory word and address is in range
(R34) is in the types. -/
abbrev State.Inv (s : State) : Prop :=
  s.x[Config.zeroReg] = 0#16 ∧ s.mem.wf = true ∧ (s.halted = true → s.pc.toNat < 8192)

/-- Every memory word reads as before. -/
def KeepsMemory (s t : State) : Prop := ∀ c : Addr, t.readMem c = s.readMem c

/-- Every register but `d` reads as before, and the cell of register 0 holds 0 (10_state.md R22, R24). -/
def WritesOnly (d : Reg) (s t : State) : Prop :=
  (∀ r : Reg, r ≠ d → t.readReg r = s.readReg r) ∧ t.x[Config.zeroReg] = 0#16

/-- Every register reads as before, and the cell of register 0 holds 0. -/
def KeepsRegs (s t : State) : Prop := (∀ r : Reg, t.readReg r = s.readReg r) ∧ t.x[Config.zeroReg] = 0#16

/-- `pc` is the default `(current_pc + 1) & 0xFFFF` (40_cycle.md R83), and the core has not halted (R88). -/
def FallsThrough (s t : State) : Prop := t.pc.toNat = (s.pc.toNat + 1) % 65536 ∧ t.halted = false

/-- The halt detector's formula (40_cycle.md R86, R87), on the step from `s` to `t`. -/
def HaltBit (s t : State) : Prop := t.halted = true ↔ t.pc.toNat % 8192 = s.pc.toNat

/-- `sext_7(imm7)` as a number, -64..63 (00_scope.md R11). -/
def immValue (imm : Imm7) : Int := if imm.toNat < 64 then (imm.toNat : Int) else (imm.toNat : Int) - 128

/-- The fields of format RRR (30_encoding.md R61). -/
def FieldsRRR (w : Word) (d a b : Reg) : Prop :=
  a.val = w.toNat / 1024 % 8 ∧ b.val = w.toNat / 128 % 8 ∧ d.val = w.toNat / 16 % 8

/-- The fields of format RRI (R62). -/
def FieldsRRI (w : Word) (a r : Reg) (imm : Imm7) : Prop :=
  a.val = w.toNat / 1024 % 8 ∧ r.val = w.toNat / 128 % 8 ∧ imm.toNat = w.toNat % 128

/-- The register an instruction writes (10_state.md R24). -/
def destReg : Instr → Option Reg
  | .add d _ _ => some d
  | .sub d _ _ => some d
  | .or d _ _ => some d
  | .and d _ _ => some d
  | .slt d _ _ => some d
  | .jr _ _ => none
  | .addi d _ _ => some d
  | .j _ => none
  | .jal _ => some 7
  | .lw d _ _ => some d
  | .sw _ _ _ => none
  | .jeq _ _ _ => none
  | .slti d _ _ => some d
  | .reservedSub0101 _ => none
  | .reservedSub0110 _ => none
  | .reservedSub0111 _ => none
  | .reservedSub1001 _ => none
  | .reservedSub1010 _ => none
  | .reservedSub1011 _ => none
  | .reservedSub1100 _ => none
  | .reservedSub1101 _ => none
  | .reservedSub1110 _ => none
  | .reservedSub1111 _ => none

/-- The `next_pc` of each instruction (10_state.md R26), as a number. -/
def nextPcOf (i : Instr) (s : State) : Nat :=
  match i with
  | .add _ _ _ => (s.pc.toNat + 1) % 65536
  | .sub _ _ _ => (s.pc.toNat + 1) % 65536
  | .or _ _ _ => (s.pc.toNat + 1) % 65536
  | .and _ _ _ => (s.pc.toNat + 1) % 65536
  | .slt _ _ _ => (s.pc.toNat + 1) % 65536
  | .jr a _ => (s.readReg a).toNat % 8192
  | .addi _ _ _ => (s.pc.toNat + 1) % 65536
  | .j target => target.toNat
  | .jal target => target.toNat
  | .lw _ _ _ => (s.pc.toNat + 1) % 65536
  | .sw _ _ _ => (s.pc.toNat + 1) % 65536
  | .jeq a b off =>
    if s.readReg a = s.readReg b then (((s.pc.toNat : Int) + 1 + immValue off) % 65536).toNat
    else (s.pc.toNat + 1) % 65536
  | .slti _ _ _ => (s.pc.toNat + 1) % 65536
  | .reservedSub0101 _ => (s.pc.toNat + 1) % 65536
  | .reservedSub0110 _ => (s.pc.toNat + 1) % 65536
  | .reservedSub0111 _ => (s.pc.toNat + 1) % 65536
  | .reservedSub1001 _ => (s.pc.toNat + 1) % 65536
  | .reservedSub1010 _ => (s.pc.toNat + 1) % 65536
  | .reservedSub1011 _ => (s.pc.toNat + 1) % 65536
  | .reservedSub1100 _ => (s.pc.toNat + 1) % 65536
  | .reservedSub1101 _ => (s.pc.toNat + 1) % 65536
  | .reservedSub1110 _ => (s.pc.toNat + 1) % 65536
  | .reservedSub1111 _ => (s.pc.toNat + 1) % 65536

/-- The instructions that target themselves (40_cycle.md R88). -/
def SelfTarget (i : Instr) (s : State) : Prop :=
  match i with
  | .add _ _ _ => False
  | .sub _ _ _ => False
  | .or _ _ _ => False
  | .and _ _ _ => False
  | .slt _ _ _ => False
  | .jr a _ => (s.readReg a).toNat % 8192 = s.pc.toNat
  | .addi _ _ _ => False
  | .j target => target.toNat = s.pc.toNat
  | .jal target => target.toNat = s.pc.toNat
  | .lw _ _ _ => False
  | .sw _ _ _ => False
  | .jeq a b off => s.readReg a = s.readReg b ∧ immValue off = -1
  | .slti _ _ _ => False
  | .reservedSub0101 _ => False
  | .reservedSub0110 _ => False
  | .reservedSub0111 _ => False
  | .reservedSub1001 _ => False
  | .reservedSub1010 _ => False
  | .reservedSub1011 _ => False
  | .reservedSub1100 _ => False
  | .reservedSub1101 _ => False
  | .reservedSub1110 _ => False
  | .reservedSub1111 _ => False

/-- A run of `n` steps from `s` ends in `t` (70_reset_and_hazards.md R206): the state right after the Commit that set
`halted`. A halted core takes no step, so the `n`-th step is the first to set it. -/
def RunEnds (n : Nat) (s t : State) : Prop := Sys2Proof.core.run n s = .next t ∧ t.halted = true

/-- A run that never ends (40_cycle.md R90, R206). -/
def RunsForever (s : State) : Prop := ∀ n, ∃ t, Sys2Proof.core.run n s = .next t ∧ t.halted = false

/-- A run is safe when no number of steps ends in anything but a next state or the stop of a halted core (60_exceptions.md
R180, R184). -/
def SafeRun (s : State) : Prop :=
  ∀ n, (∃ t, Sys2Proof.core.run n s = .next t) ∨ Sys2Proof.core.run n s = .fault .halted

/-- The state of 40_cycle.md R91 as numbers: registers, `pc`, memory by address, `halted`. It is the claims' own, not the
machine's state. -/
structure Numbers where
  x : Nat → Nat
  pc : Nat
  mem : Nat → Nat
  halted : Bool

/-- A state read as numbers. -/
def State.numbers (s : State) : Numbers :=
  { x := fun i => if h : i < 8 then (s.x[i]).toNat else 0
    pc := s.pc.toNat
    mem := fun a => (s.mem.read a).toNat
    halted := s.halted }

/-- `x[d] <- v` through the write port (40_cycle.md R85), on numbers. -/
def Numbers.put (S : Numbers) (d v : Nat) : Numbers :=
  if d = 0 then S else { S with x := fun i => if i = d then v % 65536 else S.x i }

/-- The last three lines of R91, Commit (R86), on numbers. -/
def Numbers.commit (currentPc nextPc : Nat) (S : Numbers) : Numbers :=
  { x := fun i => if i = 0 then 0 else S.x i
    pc := nextPc
    mem := S.mem
    halted := nextPc % 8192 == currentPc }

/-- The complete step of 40_cycle.md R91, line by line, on numbers: fields by division and remainder, arithmetic on
unbounded integers and then the mask that is written (00_scope.md R9, R10). -/
def Numbers.step (S : Numbers) : Numbers :=
  let currentPc := S.pc
  let ins := S.mem (S.pc % 8192)
  let op := ins / 8192
  let a := ins / 1024 % 8
  let b := ins / 128 % 8
  let va := S.x a
  let vb := S.x b
  let imm := if ins % 128 < 64 then ins % 128 else ins % 128 + 0xFF80
  let nextPc := (currentPc + 1) % 65536
  match op with
  | 0 =>
    let d := ins / 16 % 8
    match ins % 16 with
    | 0 => (S.put d ((va + vb) % 65536)).commit currentPc nextPc
    | 1 => (S.put d ((va + 65536 - vb) % 65536)).commit currentPc nextPc
    | 2 => (S.put d (va ||| vb)).commit currentPc nextPc
    | 3 => (S.put d (va &&& vb)).commit currentPc nextPc
    | 4 => (S.put d (if va < vb then 1 else 0)).commit currentPc nextPc
    | 8 => S.commit currentPc (va % 8192)
    | _ => S.commit currentPc nextPc
  | 1 => (S.put b ((va + imm) % 65536)).commit currentPc nextPc
  | 2 => S.commit currentPc (ins % 8192)
  | 3 => (S.put 7 ((currentPc + 1) % 65536)).commit currentPc (ins % 8192)
  | 4 => (S.put b (S.mem ((va + imm) % 8192))).commit currentPc nextPc
  | 5 =>
    let ea := (va + imm) % 8192
    { S with mem := fun c => if c = ea then vb else S.mem c }.commit currentPc nextPc
  | 6 => S.commit currentPc (if va = vb then (currentPc + 1 + imm) % 65536 else nextPc)
  | _ => (S.put b (if va < imm then 1 else 0)).commit currentPc nextPc

end Sys2Proof.Machine
end

