-- ==== Sys2Proof/Certificates/Slice0/Obligations.lean ====
section
/-! DEFINITION. The statements for the provers. Each docstring names the rule of spec/ it formalises. -/

open Sys2Proof Sys2Proof.Machine

/-! ## Encoding -/

/-- Words written out in spec/ decode to the instructions it gives for them: 30_encoding.md R72, 41 to 44 (Examples),
95_test_vectors.md. One per format, the extreme immediates, and words with ignored bits set. -/
def Obligations.SpecWordsDecode : Prop :=
  decode 0b000_001_010_011_0000#16 = .ok (.add 3 1 2) ∧ decode 0b000_010_001_101_0001#16 = .ok (.sub 5 2 1) ∧
  decode 0b000_111_000_000_1000#16 = .ok (.jr 7 0#6) ∧ decode 0b001_000_001_1000000#16 = .ok (.addi 1 0 64#7) ∧
  decode 0b010_1111111111111#16 = .ok (.j 8191#13) ∧ decode 0b011_0000000000101#16 = .ok (.jal 5#13) ∧
  decode 0b100_000_011_0010000#16 = .ok (.lw 3 0 16#7) ∧ decode 0b101_000_010_0010000#16 = .ok (.sw 2 0 16#7) ∧
  decode 0b110_001_000_0000001#16 = .ok (.jeq 1 0 1#7) ∧ decode 0b111_001_011_1111111#16 = .ok (.slti 3 1 127#7) ∧
  decode 0b000_001_010_101_0101#16 = .ok (.reservedSub0101 0b001_010_101#9)

/-- Decoding an instruction's word gives the instruction back, for every instruction and every value of every operand
(30_encoding.md R61 to R63, R67, R68). -/
def Obligations.DecodeInvertsEncode : Prop := ∀ i : Instr, decode (encode i) = .ok i

/-- Two words never decode to one instruction: encoding what a word decodes to gives the word back (R70: no bit of the
word is lost; the ignored bits are carried, log 10). -/
def Obligations.EncodeInvertsDecode : Prop := ∀ (w : Word) (i : Instr), decode w = .ok i → encode i = w

/-- "The decoder is total" (40_cycle.md R92): every word decodes, so the defensive branch is never reached. -/
def Obligations.EveryWordDecodes : Prop := ∀ w : Word, ∃ i : Instr, decode w = .ok i

/-- Words that differ only in the bits JR or a reserved sub-code ignores run alike in every state (30_encoding.md R70).
-/
def Obligations.IgnoredBitsHaveNoEffect : Prop :=
  ∀ (w w' : Word) (i i' : Instr), decode w = .ok i → decode w' = .ok i' → w &&& 0xE00F#16 = w' &&& 0xE00F#16 →
    (w &&& 0xE00F#16 = 0x0008#16 → w &&& 0x1C00#16 = w' &&& 0x1C00#16 → ∀ s : State, exec i s = exec i' s) ∧
    ((w &&& 0xE00F#16 ∈ [0x0005#16, 0x0006#16, 0x0007#16, 0x0009#16, 0x000A#16, 0x000B#16, 0x000C#16, 0x000D#16,
      0x000E#16, 0x000F#16]) → ∀ s : State, exec i s = exec i' s)

/-! ## Results, frames and completion, instruction by instruction -/

/-- ADD (41_alu_register.md R101): the words that are ADD, and the sum modulo 65536; a destination of 0 writes nothing,
every other register and all of memory are unchanged, the next word follows. -/
def Obligations.AddWritesTheSum : Prop :=
  (∀ (w : Word) (d a b : Reg), decode w = .ok (.add d a b) ↔ w &&& 0xE00F#16 = 0x0000#16 ∧ FieldsRRR w d a b) ∧
  ∀ (d a b : Reg) (s : State), ∃ t, exec (.add d a b) s = .next t ∧
    (d ≠ 0 → (t.readReg d).toNat = ((s.readReg a).toNat + (s.readReg b).toNat) % 65536) ∧
    WritesOnly d s t ∧ KeepsMemory s t ∧ FallsThrough s t

/-- SUB (R102): `va + 65536 - vb` modulo 65536; a destination of 0 writes nothing, every other register and all of
memory are unchanged, the next word follows. -/
def Obligations.SubWritesTheDifference : Prop :=
  (∀ (w : Word) (d a b : Reg), decode w = .ok (.sub d a b) ↔ w &&& 0xE00F#16 = 0x0001#16 ∧ FieldsRRR w d a b) ∧
  ∀ (d a b : Reg) (s : State), ∃ t, exec (.sub d a b) s = .next t ∧
    (d ≠ 0 → (t.readReg d).toNat = ((s.readReg a).toNat + 65536 - (s.readReg b).toNat) % 65536) ∧
    WritesOnly d s t ∧ KeepsMemory s t ∧ FallsThrough s t

/-- OR (R103): bit by bit; a destination of 0 writes nothing, every other register and all of memory are unchanged, the
next word follows. -/
def Obligations.OrWritesTheBitwiseOr : Prop :=
  (∀ (w : Word) (d a b : Reg), decode w = .ok (.or d a b) ↔ w &&& 0xE00F#16 = 0x0002#16 ∧ FieldsRRR w d a b) ∧
  ∀ (d a b : Reg) (s : State), ∃ t, exec (.or d a b) s = .next t ∧
    (d ≠ 0 → ∀ k : Nat, (t.readReg d).getLsbD k = ((s.readReg a).getLsbD k || (s.readReg b).getLsbD k)) ∧
    WritesOnly d s t ∧ KeepsMemory s t ∧ FallsThrough s t

/-- AND (R104): bit by bit; a destination of 0 writes nothing, every other register and all of memory are unchanged, the
next word follows. -/
def Obligations.AndWritesTheBitwiseAnd : Prop :=
  (∀ (w : Word) (d a b : Reg), decode w = .ok (.and d a b) ↔ w &&& 0xE00F#16 = 0x0003#16 ∧ FieldsRRR w d a b) ∧
  ∀ (d a b : Reg) (s : State), ∃ t, exec (.and d a b) s = .next t ∧
    (d ≠ 0 → ∀ k : Nat, (t.readReg d).getLsbD k = ((s.readReg a).getLsbD k && (s.readReg b).getLsbD k)) ∧
    WritesOnly d s t ∧ KeepsMemory s t ∧ FallsThrough s t

/-- SLT (R105): 1 if `va < vb` as unsigned numbers, else 0; a destination of 0 writes nothing, every other register and
all of memory are unchanged, the next word follows. -/
def Obligations.SltWritesTheUnsignedComparison : Prop :=
  (∀ (w : Word) (d a b : Reg), decode w = .ok (.slt d a b) ↔ w &&& 0xE00F#16 = 0x0004#16 ∧ FieldsRRR w d a b) ∧
  ∀ (d a b : Reg) (s : State), ∃ t, exec (.slt d a b) s = .next t ∧
    (d ≠ 0 → (t.readReg d).toNat = if (s.readReg a).toNat < (s.readReg b).toNat then 1 else 0) ∧
    WritesOnly d s t ∧ KeepsMemory s t ∧ FallsThrough s t

/-- The ten reserved ADD-class sub-codes (30_encoding.md R69, 41_alu_register.md R106): the words that are each of them,
bits 12..4 being the ignored field; every register and all of memory are unchanged, the next word follows, whatever
the ignored bits. -/
def Obligations.ReservedSubCodesDoNothing : Prop :=
  (∀ (w : Word) (ignored : BitVec 9),
    (decode w = .ok (.reservedSub0101 ignored) ↔
      w &&& 0xE00F#16 = 0x0005#16 ∧ ignored.toNat = w.toNat / 16 % 512) ∧
    (decode w = .ok (.reservedSub0110 ignored) ↔
      w &&& 0xE00F#16 = 0x0006#16 ∧ ignored.toNat = w.toNat / 16 % 512) ∧
    (decode w = .ok (.reservedSub0111 ignored) ↔
      w &&& 0xE00F#16 = 0x0007#16 ∧ ignored.toNat = w.toNat / 16 % 512) ∧
    (decode w = .ok (.reservedSub1001 ignored) ↔
      w &&& 0xE00F#16 = 0x0009#16 ∧ ignored.toNat = w.toNat / 16 % 512) ∧
    (decode w = .ok (.reservedSub1010 ignored) ↔
      w &&& 0xE00F#16 = 0x000A#16 ∧ ignored.toNat = w.toNat / 16 % 512) ∧
    (decode w = .ok (.reservedSub1011 ignored) ↔
      w &&& 0xE00F#16 = 0x000B#16 ∧ ignored.toNat = w.toNat / 16 % 512) ∧
    (decode w = .ok (.reservedSub1100 ignored) ↔
      w &&& 0xE00F#16 = 0x000C#16 ∧ ignored.toNat = w.toNat / 16 % 512) ∧
    (decode w = .ok (.reservedSub1101 ignored) ↔
      w &&& 0xE00F#16 = 0x000D#16 ∧ ignored.toNat = w.toNat / 16 % 512) ∧
    (decode w = .ok (.reservedSub1110 ignored) ↔
      w &&& 0xE00F#16 = 0x000E#16 ∧ ignored.toNat = w.toNat / 16 % 512) ∧
    (decode w = .ok (.reservedSub1111 ignored) ↔
      w &&& 0xE00F#16 = 0x000F#16 ∧ ignored.toNat = w.toNat / 16 % 512)) ∧
  ∀ (ignored : BitVec 9) (s : State),
    (∃ t, exec (.reservedSub0101 ignored) s = .next t ∧ KeepsRegs s t ∧ KeepsMemory s t ∧ FallsThrough s t) ∧
    (∃ t, exec (.reservedSub0110 ignored) s = .next t ∧ KeepsRegs s t ∧ KeepsMemory s t ∧ FallsThrough s t) ∧
    (∃ t, exec (.reservedSub0111 ignored) s = .next t ∧ KeepsRegs s t ∧ KeepsMemory s t ∧ FallsThrough s t) ∧
    (∃ t, exec (.reservedSub1001 ignored) s = .next t ∧ KeepsRegs s t ∧ KeepsMemory s t ∧ FallsThrough s t) ∧
    (∃ t, exec (.reservedSub1010 ignored) s = .next t ∧ KeepsRegs s t ∧ KeepsMemory s t ∧ FallsThrough s t) ∧
    (∃ t, exec (.reservedSub1011 ignored) s = .next t ∧ KeepsRegs s t ∧ KeepsMemory s t ∧ FallsThrough s t) ∧
    (∃ t, exec (.reservedSub1100 ignored) s = .next t ∧ KeepsRegs s t ∧ KeepsMemory s t ∧ FallsThrough s t) ∧
    (∃ t, exec (.reservedSub1101 ignored) s = .next t ∧ KeepsRegs s t ∧ KeepsMemory s t ∧ FallsThrough s t) ∧
    (∃ t, exec (.reservedSub1110 ignored) s = .next t ∧ KeepsRegs s t ∧ KeepsMemory s t ∧ FallsThrough s t) ∧
    (∃ t, exec (.reservedSub1111 ignored) s = .next t ∧ KeepsRegs s t ∧ KeepsMemory s t ∧ FallsThrough s t)

/-- ADDI (42_alu_immediate.md R120): `x[regA]` plus the immediate as a number from -64 to 63, modulo 65536; a
destination of 0 writes nothing, every other register and all of memory are unchanged, the next word follows. -/
def Obligations.AddiAddsTheSignedImmediate : Prop :=
  (∀ (w : Word) (d a : Reg) (imm : Imm7), decode w = .ok (.addi d a imm) ↔
    w &&& 0xE000#16 = 0x2000#16 ∧ FieldsRRI w a d imm) ∧
  ∀ (d a : Reg) (imm : Imm7) (s : State), ∃ t, exec (.addi d a imm) s = .next t ∧
    (d ≠ 0 → ((t.readReg d).toNat : Int) = ((s.readReg a).toNat + immValue imm) % 65536) ∧
    WritesOnly d s t ∧ KeepsMemory s t ∧ FallsThrough s t

/-- SLTI (R121): unsigned, against the immediate sign-extended and wrapped to 16 bits; a destination of 0 writes
nothing, every other register and all of memory are unchanged, the next word follows. -/
def Obligations.SltiComparesWithTheWrappedImmediate : Prop :=
  (∀ (w : Word) (d a : Reg) (imm : Imm7), decode w = .ok (.slti d a imm) ↔
    w &&& 0xE000#16 = 0xE000#16 ∧ FieldsRRI w a d imm) ∧
  ∀ (d a : Reg) (imm : Imm7) (s : State), ∃ t, exec (.slti d a imm) s = .next t ∧
    (d ≠ 0 → (t.readReg d).toNat = if ((s.readReg a).toNat : Int) < immValue imm % 65536 then 1 else 0) ∧
    WritesOnly d s t ∧ KeepsMemory s t ∧ FallsThrough s t

/-- The addressing mode (44_load_store.md R160): `(x[regA] + sext_7(imm7)) & 0x1FFF`, and what `imm($0)` reaches. -/
def Obligations.EffectiveAddressWraps : Prop :=
  (∀ (base : Word) (imm : Imm7), ((effectiveAddr base imm).toNat : Int) = (base.toNat + immValue imm) % 8192) ∧
  ∀ imm : Imm7, (effectiveAddr 0#16 imm).toNat ≤ 63 ∨ 8128 ≤ (effectiveAddr 0#16 imm).toNat

/-- LW (R161): the whole word at the effective address of the old `x[regA]`; a destination of 0 writes nothing, every
other register and all of memory are unchanged, the next word follows. -/
def Obligations.LwLoadsTheWord : Prop :=
  (∀ (w : Word) (d a : Reg) (imm : Imm7), decode w = .ok (.lw d a imm) ↔
    w &&& 0xE000#16 = 0x8000#16 ∧ FieldsRRI w a d imm) ∧
  ∀ (d a : Reg) (imm : Imm7) (s : State), ∃ t, exec (.lw d a imm) s = .next t ∧
    (d ≠ 0 → ∀ ea : Addr, (ea.toNat : Int) = ((s.readReg a).toNat + immValue imm) % 8192 → t.readReg d = s.readMem ea) ∧
    WritesOnly d s t ∧ KeepsMemory s t ∧ FallsThrough s t

/-- SW (R162): `x[regB]` is stored at the effective address, whatever stands there; every other word and every register
are unchanged, the next word follows. The word read back needs the memory's canonical form, which is part of the
invariant (`InvariantKeptByEveryStep`). -/
def Obligations.SwStoresTheWord : Prop :=
  (∀ (w : Word) (b a : Reg) (imm : Imm7), decode w = .ok (.sw b a imm) ↔
    w &&& 0xE000#16 = 0xA000#16 ∧ FieldsRRI w a b imm) ∧
  ∀ (b a : Reg) (imm : Imm7) (s : State), ∃ t, exec (.sw b a imm) s = .next t ∧
    ((effectiveAddr (s.readReg a) imm).toNat : Int) = ((s.readReg a).toNat + immValue imm) % 8192 ∧
    (s.mem.wf = true → t.readMem (effectiveAddr (s.readReg a) imm) = s.readReg b) ∧
    (∀ c : Addr, c ≠ effectiveAddr (s.readReg a) imm → t.readMem c = s.readMem c) ∧
    KeepsRegs s t ∧ FallsThrough s t

/-- J (43_control.md R140): `pc` becomes the target; nothing else changes but the halt bit (40_cycle.md R86, R87). At a
`pc` of 8192 or more the halt bit rests on the literal reading of the halt comparison, the spec's choice D4 (log 4). -/
def Obligations.JumpGoesToTheTarget : Prop :=
  (∀ (w : Word) (target : Imm13), decode w = .ok (.j target) ↔
    w &&& 0xE000#16 = 0x4000#16 ∧ target.toNat = w.toNat % 8192) ∧
  ∀ (target : Imm13) (s : State), ∃ t, exec (.j target) s = .next t ∧
    t.pc.toNat = target.toNat ∧ HaltBit s t ∧ KeepsRegs s t ∧ KeepsMemory s t

/-- JAL (R141): `x[7]` becomes `(current_pc + 1) & 0xFFFF`, not reduced modulo 8192, even when JAL halts; `pc` becomes
the target; every other register and all of memory are unchanged, and the halt bit is R86's (R87). At a `pc` of 8192 or
more the halt bit rests on the literal reading of the halt comparison, the spec's choice D4 (log 4). -/
def Obligations.JalLinksAndJumps : Prop :=
  (∀ (w : Word) (target : Imm13), decode w = .ok (.jal target) ↔
    w &&& 0xE000#16 = 0x6000#16 ∧ target.toNat = w.toNat % 8192) ∧
  ∀ (target : Imm13) (s : State), ∃ t, exec (.jal target) s = .next t ∧
    (t.readReg 7).toNat = (s.pc.toNat + 1) % 65536 ∧ t.pc.toNat = target.toNat ∧
    HaltBit s t ∧ WritesOnly 7 s t ∧ KeepsMemory s t

/-- JR (R142): `pc` becomes `x[regA] & 0x1FFF`, bits 9..4 of the word ignored; nothing else changes but the halt
bit (40_cycle.md R86, R87). At a `pc` of 8192 or more the halt bit rests on the literal reading of the halt comparison,
the spec's choice D4 (log 4). -/
def Obligations.JrGoesToTheRegister : Prop :=
  (∀ (w : Word) (a : Reg), (∃ ignored, decode w = .ok (.jr a ignored)) ↔
    w &&& 0xE00F#16 = 0x0008#16 ∧ a.val = w.toNat / 1024 % 8) ∧
  ∀ (a : Reg) (ignored : BitVec 6) (s : State), ∃ t, exec (.jr a ignored) s = .next t ∧
    t.pc.toNat = (s.readReg a).toNat % 8192 ∧ HaltBit s t ∧ KeepsRegs s t ∧ KeepsMemory s t

/-- JEQ (R143): if the registers are equal, `pc` becomes `(current_pc + 1 + sext_7(imm7)) & 0xFFFF`, modulo 65536 and
not 8192; otherwise the next word follows. Nothing else changes but the halt bit (40_cycle.md R86, R87). At a `pc` of
8192 or more the halt bit of a taken JEQ rests on the literal reading of the halt comparison, the spec's choice D4
(log 4). -/
def Obligations.JeqBranchesOnEqual : Prop :=
  (∀ (w : Word) (a b : Reg) (off : Imm7), decode w = .ok (.jeq a b off) ↔
    w &&& 0xE000#16 = 0xC000#16 ∧ FieldsRRI w a b off) ∧
  ∀ (a b : Reg) (off : Imm7) (s : State), ∃ t, exec (.jeq a b off) s = .next t ∧
    (s.readReg a = s.readReg b → (t.pc.toNat : Int) = (s.pc.toNat + 1 + immValue off) % 65536) ∧
    (s.readReg a ≠ s.readReg b → FallsThrough s t) ∧
    HaltBit s t ∧ KeepsRegs s t ∧ KeepsMemory s t

/-! ## The step, Commit and the halt detector -/

/-- A step of a core that has not halted runs the instruction at `mem[pc mod 8192]` (40_cycle.md R80 to R82). -/
def Obligations.StepRunsTheFetchedInstruction : Prop :=
  ∀ (s : State) (a : Addr) (i : Instr), s.halted = false → a.toNat = s.pc.toNat % 8192 → decode (s.readMem a) = .ok i →
    step s = exec i s

/-- "A step that is enabled always completes: no phase can block, and no instruction can fault" (R80); a halted core
takes no step (R89, the stop is the model's name for it, log 5). -/
def Obligations.EnabledStepsComplete : Prop :=
  ∀ s : State, (s.halted = false → ∃ t, step s = .next t) ∧ (s.halted = true → step s = .fault .halted)

/-- The `next_pc` of every instruction (10_state.md R26). -/
def Obligations.NextPcOfEveryInstruction : Prop :=
  ∀ (i : Instr) (s t : State), exec i s = .next t → t.pc.toNat = nextPcOf i s

/-- The register each instruction writes (10_state.md R24): every other register is unchanged. -/
def Obligations.AtMostOneRegisterIsWritten : Prop :=
  ∀ (i : Instr) (s t : State), exec i s = .next t → ∀ r : Reg, destReg i ≠ some r → t.readReg r = s.readReg r

/-- Memory is changed by SW alone (20_memory.md R54). -/
def Obligations.OnlySwChangesMemory : Prop :=
  ∀ (i : Instr) (s t : State), exec i s = .next t → (∀ b a imm, i ≠ .sw b a imm) → ∀ c : Addr, t.readMem c = s.readMem c

/-- "after every completed cycle, register 0 equals 0" (10_state.md R22, R34), from any state whatever. -/
def Obligations.RegisterZeroIsZeroAfterEveryStep : Prop :=
  ∀ s t : State, step s = .next t → t.x[(0 : Reg)] = 0#16 ∧ t.readReg 0 = 0#16

/-- When the halt detector fires (40_cycle.md R88): exactly on an instruction that targets itself, below 8192.
At 8192 and above it rests on the literal reading of the halt comparison, the spec's choice D4 (log 4). -/
def Obligations.HaltsExactlyOnSelfTarget : Prop :=
  ∀ (i : Instr) (s t : State), exec i s = .next t → (t.halted = true ↔ s.pc.toNat < 8192 ∧ SelfTarget i s)

/-- "while `current_pc` is 8192 or more, no instruction halts the core" (R87): the literal reading of the halt
comparison, the spec's choice D4 (log 4). -/
def Obligations.NoStepHaltsAbove8191 : Prop :=
  ∀ s t : State, 8192 ≤ s.pc.toNat → step s = .next t → t.halted = false

/-- In particular, a JEQ to itself fetched at 8192 or above loops for ever (R87, R90): the literal reading of the halt
comparison, the spec's choice D4 (log 4). -/
def Obligations.SelfBranchAbove8191RunsForever : Prop :=
  ∀ (s : State) (a : Reg) (off : Imm7), s.halted = false → 8192 ≤ s.pc.toNat → immValue off = -1 →
    s.fetchDecode = .ok (.jeq a a off) → RunsForever s

/-- The two readings of the halt comparison (00_scope.md R8, 40_cycle.md R87, D4): they agree below 8192; at 8192 and
above the literal one never fires and the other fires on a self-target. -/
def Obligations.HaltReadingsCompared : Prop :=
  ∀ current next : Word,
    (current.toNat < 8192 → haltDetect true current next = haltDetect false current next) ∧
    (8192 ≤ current.toNat → haltDetect false current next = false ∧ haltDetect true current current = true)

/-- The halting instruction completes, the final `pc` is its own address below 8192 (40_cycle.md R89, 70 R205), and no
step follows (log 5). That it lies below 8192 rests on the literal reading of the halt comparison, the spec's choice D4
(log 4). -/
def Obligations.HaltingStepLeavesItsOwnPc : Prop :=
  ∀ s t : State, step s = .next t → t.halted = true →
    t.pc = s.pc ∧ t.pc.toNat < 8192 ∧ step t = .fault .halted

/-! ## Memory, runs and the invariant -/

/-- The invariant holds at reset. -/
def Obligations.InvariantAtReset : Prop := State.reset.Inv

/-- The invariant (10_state.md R34, log 2, 70 R205) is kept by every step, from every state that has it. That a
halted core's `pc` is below 8192 rests on the literal reading of the halt comparison, the spec's choice D4 (log 4). -/
def Obligations.InvariantKeptByEveryStep : Prop := ∀ s t : State, s.Inv → step s = .next t → t.Inv

/-- Self-modifying code (20_memory.md R52, 70 R208): a word SW stores where the next instruction is fetched is the
instruction the very next step runs. -/
def Obligations.StoredWordIsFetchedByTheNextStep : Prop :=
  ∀ (s : State) (b a : Reg) (imm : Imm7) (i : Instr), s.mem.wf = true → s.halted = false →
    s.fetchDecode = .ok (.sw b a imm) → decode (s.readReg b) = .ok i →
    (effectiveAddr (s.readReg a) imm).toNat = (s.pc.toNat + 1) % 8192 →
    ∃ t, step s = .next t ∧ t.fetch = s.readReg b ∧ step t = exec i t

/-- JAL and then JR through `$7` return to the word after the call, modulo 8192 (43_control.md R141). -/
def Obligations.CallThenReturn : Prop :=
  ∀ (s : State) (target : Imm13) (ignored : BitVec 6), ∃ t u, exec (.jal target) s = .next t ∧
    exec (.jr 7 ignored) t = .next u ∧ u.pc.toNat = (s.pc.toNat + 1) % 8192

/-- Two memories in canonical form that read alike at every address are one memory (log 1, log 2). -/
def Obligations.EqualMemoriesAreEqualData : Prop :=
  ∀ s t : State, s.mem.wf = true → t.mem.wf = true → (∀ c : Addr, t.readMem c = s.readMem c) → t.mem = s.mem

/-- The step is the complete step of 40_cycle.md R91, read as arithmetic on numbers. At a `pc` of 8192 or more the halt
bit rests on the literal reading of the halt comparison, the spec's choice D4 (log 4); the invariant in the premise
contains the model's canonical form of memory (log 2). -/
def Obligations.StepIsTheSpecsStep : Prop :=
  ∀ s : State, s.Inv → s.halted = false → ∃ t, step s = .next t ∧ t.numbers = s.numbers.step

/-- No run ends in anything but a next state or the stop of a halted core (60_exceptions.md R180, R181). -/
def Obligations.EveryRunIsSafe : Prop := ∀ s : State, SafeRun s

/-- Once a run has ended, no further step is taken (40_cycle.md R89). -/
def Obligations.AnEndedRunTakesNoStep : Prop :=
  ∀ (n k : Nat) (s t : State), RunEnds n s t → Sys2Proof.core.run (n + k + 1) s = .fault .halted

/-! ## Reset and the host interface -/

/-- The reset state (10_state.md R33, 70 R200): every register 0, `pc` 0, not halted, every memory word 0; the first
fetch reads `mem[0]`. -/
def Obligations.ResetIsAllZero : Prop :=
  (∀ r : Reg, State.reset.x[r] = 0#16 ∧ State.reset.readReg r = 0#16) ∧ State.reset.pc = 0#16 ∧
  State.reset.halted = false ∧ (∀ a : Addr, State.reset.readMem a = 0#16) ∧ fetchAddr State.reset.pc = 0#13

/-- The image the host accepts (70 R203): addresses 0, 1, 2, … with no gaps, at most 8192 words. -/
def Obligations.AcceptedImagesAreConsecutive : Prop :=
  ∀ (lines : List (Nat × Word)) (image : List Word),
    acceptImage lines = some image ↔
      lines.map Prod.fst = List.range lines.length ∧ lines.length ≤ 8192 ∧ image = lines.map Prod.snd

/-- Reset and boot (10_state.md R33, 70 R201 to R203): from an accepted image, word `i` stands at address `i`, the words
beyond it are 0, every register and `pc` are 0, the core is not halted, and the invariant holds, which
contains the model's canonical form of memory (log 2); a rejected image boots nothing (R203). -/
def Obligations.BootLoadsTheImage : Prop :=
  ∀ lines : List (Nat × Word),
    (∀ image, acceptImage lines = some image → ∃ s, State.boot lines = some s ∧
      (∀ a : Addr, s.readMem a = image.getD a.toNat 0#16) ∧ (∀ r : Reg, s.x[r] = 0#16 ∧ s.readReg r = 0#16) ∧
      s.pc = 0#16 ∧ s.halted = false ∧ s.Inv) ∧
    (acceptImage lines = none → State.boot lines = none)

/-- The host reads `pc`, the eight registers and the words 0 to k-1 of a halted core (70 R205), and nothing of a running
one (R202). -/
def Obligations.HostReadsTheHaltedState : Prop :=
  ∀ (k : Nat) (s : State), k ≤ 8192 →
    (s.halted = false → finalReport k s = none) ∧
    (s.halted = true → ∃ r, finalReport k s = some r ∧ r.pc = s.pc ∧
      (∀ i : Reg, r.regs[i.val]? = some (s.readReg i)) ∧ r.regs.length = 8 ∧ r.mem.length = k ∧
      ∀ a : Addr, a.toNat < k → r.mem[a.toNat]? = some (s.readMem a))

/-! ## The assembler's pseudo-instructions, run on the core -/

/-- "zero-filled memory executes as a run of NOPs" (30_encoding.md R74): the word 0x0000, which NOP assembles to,
changes nothing and goes on to the next word. That NOP is this word is the spec's choice D11 (93, G2; log 15). -/
def Obligations.ZeroWordIsANop : Prop :=
  (∀ site, assemble site .nop = some 0x0000#16) ∧
  ∀ s : State, s.halted = false → s.fetch = 0x0000#16 →
    ∃ t, step s = .next t ∧ KeepsRegs s t ∧ KeepsMemory s t ∧ FallsThrough s t

/-- HALT (R74), `J <its own address>`: it halts while the PC is below 8192, and changes nothing else. The
pseudo-instruction is the spec's choice D11 (log 15). -/
def Obligations.HaltPseudoInstructionHalts : Prop :=
  ∀ (s : State) (w : Word), s.halted = false → s.pc.toNat < 8192 → assemble s.pc.toNat .halt = some w → s.fetch = w →
    ∃ t, step s = .next t ∧ t.halted = true ∧ t.pc = s.pc ∧ KeepsRegs s t ∧ KeepsMemory s t

/-- MOVI (R74), `ADDI $d, $0, imm`: it loads the immediate, a number from -64 to 63 or the raw pattern 64 to 127 of a
negative one (R73); into `$0` it loads nothing. The pseudo-instruction is the spec's choice D11 (log 15). -/
def Obligations.MoviLoadsTheImmediate : Prop :=
  ∀ (s : State) (site d : Nat) (imm : Int) (w : Word), s.halted = false →
    assemble site (.movi d imm) = some w → s.fetch = w →
    ∃ t, step s = .next t ∧
      (d ≠ 0 → ((t.readReg (regOfNat d)).toNat : Int) = (if imm ≤ 63 then imm else imm - 128) % 65536) ∧
      WritesOnly (regOfNat d) s t ∧ KeepsMemory s t ∧ FallsThrough s t

/-- A JEQ to a label (R73): assembled at its own address, it reaches the label when the registers are equal. The syntax
is the spec's choice D10 (log 15); the label stands below 8192 (log 19). -/
def Obligations.LabelBranchReachesTheLabel : Prop :=
  ∀ (s : State) (a b target : Nat) (w : Word), s.halted = false →
    assemble s.pc.toNat (.jeqLabel a b target) = some w → s.fetch = w →
    s.readReg (regOfNat a) = s.readReg (regOfNat b) → ∃ t, step s = .next t ∧ t.pc.toNat = target
end

