-- ==== Sys2Proof/Laws/Decode.lean ====
section
/-! SUPPORT. Fields of the formats: what the decoder's field extractions read from the encoder's words, and their values
as numbers. -/

namespace Sys2Proof

theorem opcodeOf_toNat (w : Word) : (opcodeOf w).toNat = w.toNat / 8192 := by
  have := w.isLt
  simp [opcodeOf, BitVec.extractLsb'_toNat, Nat.shiftRight_eq_div_pow]; omega

theorem regAOf_val (w : Word) : (regAOf w).val = w.toNat / 1024 % 8 := by
  simp [regAOf, Nat.shiftRight_eq_div_pow]

theorem regBOf_val (w : Word) : (regBOf w).val = w.toNat / 128 % 8 := by
  simp [regBOf, Nat.shiftRight_eq_div_pow]

theorem regDstOf_val (w : Word) : (regDstOf w).val = w.toNat / 16 % 8 := by
  simp [regDstOf, Nat.shiftRight_eq_div_pow]

theorem subOf_toNat (w : Word) : (subOf w).toNat = w.toNat % 16 := by
  simp [subOf, BitVec.extractLsb'_toNat]

theorem imm7Of_toNat (w : Word) : (imm7Of w).toNat = w.toNat % 128 := by
  simp [imm7Of, BitVec.extractLsb'_toNat]

theorem imm13Of_toNat (w : Word) : (imm13Of w).toNat = w.toNat % 8192 := by
  simp [imm13Of, BitVec.extractLsb'_toNat]

theorem jrIgnoredOf_toNat (w : Word) : (jrIgnoredOf w).toNat = w.toNat / 16 % 64 := by
  simp [jrIgnoredOf, BitVec.extractLsb'_toNat, Nat.shiftRight_eq_div_pow]

theorem subIgnoredOf_toNat (w : Word) : (subIgnoredOf w).toNat = w.toNat / 16 % 512 := by
  simp [subIgnoredOf, BitVec.extractLsb'_toNat, Nat.shiftRight_eq_div_pow]

@[simp] theorem regBits_toNat (r : Reg) : (regBits r).toNat = r.val := rfl

/-- Appending as arithmetic. -/
theorem append_toNat {m n : Nat} (x : BitVec m) (y : BitVec n) : (x ++ y).toNat = x.toNat * 2 ^ n + y.toNat := by
  rw [BitVec.toNat_append, ← Nat.shiftLeft_add_eq_or_of_lt y.isLt, Nat.shiftLeft_eq]

theorem encodeRRR_toNat (a b d : Reg) (sub : BitVec 4) :
    (encodeRRR a b d sub).toNat = a.val * 1024 + b.val * 128 + d.val * 16 + sub.toNat := by
  simp only [encodeRRR, append_toNat, regBits_toNat, BitVec.toNat_ofNat]
  omega

theorem encodeReserved_toNat (ignored : BitVec 9) (sub : BitVec 4) :
    (encodeReserved ignored sub).toNat = ignored.toNat * 16 + sub.toNat := by
  simp only [encodeReserved, append_toNat, BitVec.toNat_ofNat]
  omega

theorem encodeRRI_toNat (opcode : BitVec 3) (a r : Reg) (imm : Imm7) :
    (encodeRRI opcode a r imm).toNat = opcode.toNat * 8192 + a.val * 1024 + r.val * 128 + imm.toNat := by
  simp only [encodeRRI, append_toNat, regBits_toNat]
  omega

theorem encodeJ_toNat (opcode : BitVec 3) (target : Imm13) :
    (encodeJ opcode target).toNat = opcode.toNat * 8192 + target.toNat := by
  simp only [encodeJ, append_toNat]
  omega

theorem encode_jr_toNat (a : Reg) (ignored : BitVec 6) :
    (encode (.jr a ignored)).toNat = a.val * 1024 + ignored.toNat * 16 + 8 := by
  simp only [encode, append_toNat, regBits_toNat, BitVec.toNat_ofNat]
  omega

/-- The opcode's mask keeps bits 15..13. -/
theorem and_opcodeMask (w : Word) : w &&& 0xE000#16 = (w >>> 13) <<< 13 := by
  ext k hk
  rcases k with _ | _ | _ | _ | _ | _ | _ | _ | _ | _ | _ | _ | _ | _ | _ | _ | k <;>
    first | omega | simp [BitVec.getLsbD_eq_getElem]

theorem and_opcodeMask_toNat (w : Word) : (w &&& 0xE000#16).toNat = w.toNat / 8192 * 8192 := by
  have := w.isLt
  rw [and_opcodeMask, BitVec.toNat_shiftLeft, BitVec.toNat_ushiftRight, Nat.shiftRight_eq_div_pow, Nat.shiftLeft_eq]
  omega

/-- The mask of the opcode and the sub-code keeps bits 15..13 and 3..0. -/
theorem and_subMask_toNat (w : Word) : (w &&& 0xE00F#16).toNat = w.toNat / 8192 * 8192 + w.toNat % 16 := by
  have hlow : (w &&& 0x000F#16).toNat = w.toNat % 16 := Nat.and_two_pow_sub_one_eq_mod w.toNat 4
  have hsplit : w &&& 0xE00F#16 = (w &&& 0xE000#16) ||| (w &&& 0x000F#16) := by
    rw [← BitVec.and_or_distrib_left]; rfl
  have hor : w.toNat / 8192 * 8192 ||| w.toNat % 16 = w.toNat / 8192 * 8192 + w.toNat % 16 := by
    have := Nat.shiftLeft_add_eq_or_of_lt (i := 13) (b := w.toNat % 16) (by omega) (w.toNat / 8192)
    rw [Nat.shiftLeft_eq] at this
    exact this.symm
  rw [hsplit, BitVec.toNat_or, and_opcodeMask_toNat, hlow, hor]

end Sys2Proof
end

