-- ==== Sys2Proof/Laws/State.lean ====
section
/-! SUPPORT. One lemma per field per update of State, so that no proof unfolds a record update. -/

namespace Sys2Proof.Machine

section reset
@[simp] theorem reset_pc : State.reset.pc = 0#16 := rfl
@[simp] theorem reset_mem : State.reset.mem = [] := rfl
@[simp] theorem reset_halted : State.reset.halted = false := rfl
@[simp] theorem reset_x : State.reset.x = Vector.replicate 8 0#16 := rfl
end reset

section writeMem
variable (s : State) (a : Addr) (v : Word)
@[simp] theorem writeMem_x : (s.writeMem a v).x = s.x := rfl
@[simp] theorem writeMem_pc : (s.writeMem a v).pc = s.pc := rfl
@[simp] theorem writeMem_halted : (s.writeMem a v).halted = s.halted := rfl
@[simp] theorem writeMem_mem : (s.writeMem a v).mem = s.mem.write a.toNat v := rfl
end writeMem

section writeReg
variable (s : State) (d : Reg) (v : Word)
@[simp] theorem writeReg_pc : (s.writeReg d v).pc = s.pc := by unfold State.writeReg; split <;> rfl
@[simp] theorem writeReg_mem : (s.writeReg d v).mem = s.mem := by unfold State.writeReg; split <;> rfl
@[simp] theorem writeReg_halted : (s.writeReg d v).halted = s.halted := by unfold State.writeReg; split <;> rfl
theorem writeReg_x : (s.writeReg d v).x = if d = 0 then s.x else s.x.set d v := by
  unfold State.writeReg; split <;> rfl
/-- A write to index 0 is discarded (40_cycle.md R85). -/
@[simp] theorem writeReg_zero : s.writeReg 0 v = s := rfl
end writeReg

section commit
variable (wraps : Bool) (nextPc : Word) (s : State)
@[simp] theorem commitWith_pc : (commitWith wraps nextPc s).pc = nextPc := rfl
@[simp] theorem commitWith_mem : (commitWith wraps nextPc s).mem = s.mem := rfl
@[simp] theorem commitWith_halted : (commitWith wraps nextPc s).halted = haltDetect wraps s.pc nextPc := rfl
@[simp] theorem commitWith_x : (commitWith wraps nextPc s).x = s.x.set 0 0#16 := rfl
@[simp] theorem commit_pc : (commit nextPc s).pc = nextPc := rfl
@[simp] theorem commit_mem : (commit nextPc s).mem = s.mem := rfl
@[simp] theorem commit_halted : (commit nextPc s).halted = haltDetect false s.pc nextPc := rfl
@[simp] theorem commit_x : (commit nextPc s).x = s.x.set 0 0#16 := rfl
end commit

section placeWord
variable (s : State) (ins : Word)
@[simp] theorem placeWord_x : (s.placeWord ins).x = s.x := rfl
@[simp] theorem placeWord_pc : (s.placeWord ins).pc = s.pc := rfl
@[simp] theorem placeWord_halted : (s.placeWord ins).halted = false := rfl
@[simp] theorem placeWord_mem : (s.placeWord ins).mem = s.mem.write (fetchAddr s.pc).toNat ins := rfl
end placeWord

end Sys2Proof.Machine
end

