-- ==== Sys2Proof/Laws/Memory.lean ====
section
/-! SUPPORT. The laws of memory: read after write, the frame of a write, and that every operation keeps the canonical
form. -/

namespace Sys2Proof.Machine

@[simp] theorem read_nil (a : Nat) : Memory.read [] a = 0#16 := rfl

/-- Below the first listed address everything reads as unlisted. -/
theorem read_of_lt {m : Memory} {lo a : Nat} (h : Memory.wfFrom lo m = true) (ha : a < lo) : m.read a = 0#16 := by
  induction m generalizing lo with
  | nil => rfl
  | cons e m ih =>
    obtain ⟨b, w⟩ := e
    simp only [Memory.wfFrom, Bool.and_eq_true, decide_eq_true_eq] at h
    obtain ⟨⟨⟨hlo, -⟩, -⟩, hm⟩ := h
    rw [Memory.read, if_neg (by omega)]
    exact ih hm (by omega)

/-- An address outside 0..8191 is never listed. -/
theorem read_of_memWords_le {m : Memory} {lo a : Nat} (h : Memory.wfFrom lo m = true) (ha : 8192 ≤ a) :
    m.read a = 0#16 := by
  induction m generalizing lo with
  | nil => rfl
  | cons e m ih =>
    obtain ⟨b, w⟩ := e
    simp only [Memory.wfFrom, Bool.and_eq_true, decide_eq_true_eq] at h
    obtain ⟨⟨⟨-, hb⟩, -⟩, hm⟩ := h
    rw [Memory.read, if_neg (by omega)]
    exact ih hm

theorem read_entry_append (a : Nat) (v : Word) (m : Memory) (c : Nat) (h : c ≠ a) :
    Memory.read (Memory.entry a v ++ m) c = m.read c := by
  unfold Memory.entry
  split
  · rfl
  · simp [Memory.read, h]

theorem read_entry_append_same (a : Nat) (v : Word) (m : Memory) (h : m.read a = 0#16) :
    Memory.read (Memory.entry a v ++ m) a = v := by
  unfold Memory.entry
  split <;> simp_all [Memory.read]

/-- A write leaves every other word alone (20_memory.md R45), in any memory. -/
theorem read_write_of_ne (m : Memory) {a c : Nat} (v : Word) (h : c ≠ a) : (m.write a v).read c = m.read c := by
  induction m with
  | nil => rw [Memory.write, ← List.append_nil (Memory.entry a v)]; exact read_entry_append a v [] c h
  | cons e m ih =>
    obtain ⟨b, w⟩ := e
    rw [Memory.write]
    split
    · exact read_entry_append a v _ c h
    · split
      · subst b
        rw [read_entry_append a v _ c h, Memory.read, if_neg h]
      · simp only [Memory.read, ih]

/-- A read after a write to the same word gives the value written (20_memory.md R45, R48). -/
theorem read_write_same {m : Memory} {lo : Nat} (h : Memory.wfFrom lo m = true) (a : Nat) (v : Word) :
    (m.write a v).read a = v := by
  induction m generalizing lo with
  | nil => rw [Memory.write, ← List.append_nil (Memory.entry a v)]; exact read_entry_append_same a v [] rfl
  | cons e m ih =>
    obtain ⟨b, w⟩ := e
    have hm := h
    simp only [Memory.wfFrom, Bool.and_eq_true, decide_eq_true_eq] at hm
    rw [Memory.write]
    split
    · refine read_entry_append_same a v _ (read_of_lt (lo := b) ?_ ‹_›)
      simp [Memory.wfFrom, hm]
    · split
      · subst b
        exact read_entry_append_same a v _ (read_of_lt hm.2 (by omega))
      · rw [Memory.read, if_neg (by omega)]
        exact ih hm.2

theorem wfFrom_mono {m : Memory} {lo hi : Nat} (h : Memory.wfFrom hi m = true) (hle : lo ≤ hi) :
    Memory.wfFrom lo m = true := by
  cases m with
  | nil => rfl
  | cons e m =>
    obtain ⟨b, w⟩ := e
    simp only [Memory.wfFrom, Bool.and_eq_true, decide_eq_true_eq] at h ⊢
    exact ⟨⟨⟨by omega, h.1.1.2⟩, h.1.2⟩, h.2⟩

theorem wfFrom_entry_append {m : Memory} {lo a : Nat} (v : Word) (hm : Memory.wfFrom (a + 1) m = true) (hlo : lo ≤ a)
    (ha : a < 8192) : Memory.wfFrom lo (Memory.entry a v ++ m) = true := by
  unfold Memory.entry
  split
  · exact wfFrom_mono hm (by omega)
  · simp_all [Memory.wfFrom]

theorem wfFrom_write {m : Memory} {lo a : Nat} (v : Word) (h : Memory.wfFrom lo m = true) (hlo : lo ≤ a)
    (ha : a < 8192) : Memory.wfFrom lo (m.write a v) = true := by
  induction m generalizing lo with
  | nil => rw [Memory.write, ← List.append_nil (Memory.entry a v)]; exact wfFrom_entry_append v rfl hlo ha
  | cons e m ih =>
    obtain ⟨b, w⟩ := e
    have hm := h
    simp only [Memory.wfFrom, Bool.and_eq_true, decide_eq_true_eq] at hm
    rw [Memory.write]
    split
    · refine wfFrom_entry_append v ?_ hlo ha
      simp only [Memory.wfFrom, Bool.and_eq_true, decide_eq_true_eq]
      exact ⟨⟨⟨by omega, hm.1.1.2⟩, hm.1.2⟩, hm.2⟩
    · split
      · subst b
        exact wfFrom_entry_append v hm.2 hlo ha
      · simp only [Memory.wfFrom, Bool.and_eq_true, decide_eq_true_eq]
        exact ⟨hm.1, ih hm.2 (by omega)⟩

/-- A write keeps the canonical form. -/
theorem wf_writeMem {s : State} (h : s.mem.wf = true) (a : Addr) (v : Word) : (s.writeMem a v).mem.wf = true :=
  wfFrom_write v h (Nat.zero_le _) a.isLt

@[simp] theorem wf_reset : State.reset.mem.wf = true := rfl

theorem readMem_writeMem_same {s : State} (h : s.mem.wf = true) (a : Addr) (v : Word) :
    (s.writeMem a v).readMem a = v := read_write_same h a.toNat v

theorem readMem_writeMem_of_ne (s : State) {a c : Addr} (v : Word) (h : c ≠ a) :
    (s.writeMem a v).readMem c = s.readMem c :=
  read_write_of_ne s.mem v (fun e => h (BitVec.eq_of_toNat_eq e))

end Sys2Proof.Machine
end

