-- ==== Sys2Proof/Laws/Operands.lean ====
section
/-! SUPPORT. The operand forms as numbers. -/

namespace Sys2Proof.Machine

/-- `sext_7` as the number the spec writes (00_scope.md R11). -/
theorem sext7_toNat (imm : Imm7) : (sext7 imm).toNat = if imm.toNat < 64 then imm.toNat else imm.toNat + 65408 := by
  revert imm; decide

theorem sext7_eq_signExtend (imm : Imm7) : sext7 imm = imm.signExtend 16 := by
  revert imm; decide

@[simp] theorem reduceAddr_toNat (v : Word) : (reduceAddr v).toNat = v.toNat % 8192 := by
  simp [reduceAddr, BitVec.toNat_setWidth]

@[simp] theorem fetchAddr_toNat (pc : Word) : (fetchAddr pc).toNat = pc.toNat % 8192 := reduceAddr_toNat pc

@[simp] theorem fallThrough_toNat (pc : Word) : (fallThrough pc).toNat = (pc.toNat + 1) % 65536 := by
  simp [fallThrough, BitVec.toNat_add]

@[simp] theorem zext13_toNat (t : Imm13) : (zext13 t).toNat = t.toNat := by
  simp [zext13, BitVec.toNat_setWidth]; omega

@[simp] theorem jrTarget_toNat (v : Word) : (jrTarget v).toNat = v.toNat % 8192 := by
  simpa [jrTarget] using Nat.and_two_pow_sub_one_eq_mod v.toNat 13

theorem branchTarget_toNat (pc : Word) (off : Imm7) :
    (branchTarget pc off).toNat = (pc.toNat + 1 + (sext7 off).toNat) % 65536 := by
  simp [branchTarget, BitVec.toNat_add]

theorem effectiveAddr_toNat (base : Word) (imm : Imm7) :
    (effectiveAddr base imm).toNat = (base.toNat + (sext7 imm).toNat) % 8192 := by
  simp only [effectiveAddr, reduceAddr_toNat, BitVec.toNat_add]; omega

end Sys2Proof.Machine
end

