-- ==== Sys2Proof/Laws/Ops.lean ====
section
/-! SUPPORT. One lemma per shared operation that says what it does; callers cite it instead of unfolding it. -/

namespace Sys2Proof.Machine

@[simp] theorem readReg_zero (s : State) : s.readReg 0 = 0#16 := rfl

theorem readReg_of_ne {s : State} {r : Reg} (h : r ≠ 0) : s.readReg r = s.x[r] := if_neg h

/-- A register reads what its cell holds where cell 0 holds 0. -/
theorem readReg_eq_cell {s : State} (h : s.x[(0 : Reg)] = 0#16) (r : Reg) : s.readReg r = s.x[r] := by
  by_cases hr : r = 0
  · subst hr; exact h.symm
  · exact readReg_of_ne hr

/-- Two states with the same cells read alike. -/
theorem readReg_congr {s t : State} (h : t.x = s.x) (r : Reg) : t.readReg r = s.readReg r := by
  simp [State.readReg, h]

theorem readMem_congr {s t : State} (h : t.mem = s.mem) (a : Addr) : t.readMem a = s.readMem a := by
  simp [State.readMem, h]

/-- The write port: the register written reads the value, unless it is register 0 (40_cycle.md R85). -/
theorem readReg_writeReg_same (s : State) {d : Reg} (v : Word) (h : d ≠ 0) : (s.writeReg d v).readReg d = v := by
  rw [readReg_of_ne h, writeReg_x, if_neg h]
  simp

/-- The write port: every other register reads as before. -/
theorem readReg_writeReg_of_ne (s : State) {d r : Reg} (v : Word) (h : r ≠ d) :
    (s.writeReg d v).readReg r = s.readReg r := by
  have hne : d.val ≠ r.val := fun e => h (Fin.ext e.symm)
  by_cases hr : r = 0
  · subst hr; rfl
  · rw [readReg_of_ne hr, readReg_of_ne hr, writeReg_x]
    split
    · rfl
    · simp [hne]

@[simp] theorem readReg_writeMem (s : State) (a : Addr) (v : Word) (r : Reg) :
    (s.writeMem a v).readReg r = s.readReg r := rfl

@[simp] theorem readMem_writeReg (s : State) (d : Reg) (v : Word) (a : Addr) :
    (s.writeReg d v).readMem a = s.readMem a := readMem_congr (by simp) a

/-- Commit changes no register a program can read (40_cycle.md R86). -/
@[simp] theorem readReg_commitWith (wraps : Bool) (n : Word) (s : State) (r : Reg) :
    (commitWith wraps n s).readReg r = s.readReg r := by
  by_cases hr : r = 0
  · subst hr; rfl
  · have hne : ¬ (0 = r.val) := fun e => hr (Fin.ext e.symm)
    rw [readReg_of_ne hr, readReg_of_ne hr]
    simp [hne]

@[simp] theorem readReg_commit (n : Word) (s : State) (r : Reg) : (commit n s).readReg r = s.readReg r :=
  readReg_commitWith _ n s r

@[simp] theorem readMem_commit (n : Word) (s : State) (a : Addr) : (commit n s).readMem a = s.readMem a := rfl

/-- Commit zeroes the cell of register 0, unconditionally (40_cycle.md R86). -/
@[simp] theorem commit_cell_zero (n : Word) (s : State) : (commit n s).x[(0 : Reg)] = 0#16 := by
  simp

/-- The halt detector as the spec fixes it (40_cycle.md R87). -/
theorem haltDetect_false (cur next : Word) : haltDetect false cur next = true ↔ next.toNat % 8192 = cur.toNat := by
  simp [haltDetect]

/-- A fall-through never halts (40_cycle.md R88). -/
@[simp] theorem haltDetect_fallThrough (cur : Word) : haltDetect false cur (fallThrough cur) = false := by
  have := cur.isLt
  rw [Bool.eq_false_iff, Ne, haltDetect_false, fallThrough_toNat]
  omega

/-- What `retire` answers. -/
theorem retire_eq (s : State) : retire s = .next (commit (fallThrough s.pc) s) := rfl

/-- What `writeBack` answers: the write, then Commit of the default `next_pc`. -/
theorem writeBack_eq (d : Reg) (v : Word) (s : State) :
    writeBack d v s = .next (commit (fallThrough s.pc) (s.writeReg d v)) := by
  rw [writeBack, retire_eq, writeReg_pc]

/-- What `jumpTo` answers. -/
theorem jumpTo_eq (n : Word) (s : State) : jumpTo n s = .next (commit n s) := rfl

/-- What the word placed for the next fetch is read as. -/
theorem fetch_placeWord {s : State} (h : s.mem.wf = true) (ins : Word) : (s.placeWord ins).fetch = ins :=
  readMem_writeMem_same (s := s) h (fetchAddr s.pc) ins

/-- The next step after `withFetchWord` runs the instruction the word decodes to. -/
theorem step_withFetchWord {s : State} (h : s.mem.wf = true) {nbits w : Nat} {i : Instr}
    (hd : decode (tableWord nbits w) = .ok i) :
    step (s.withFetchWord nbits w) = exec i (s.withFetchWord nbits w) := by
  have hf : (s.withFetchWord nbits w).fetchDecode = .ok i := by
    rw [State.fetchDecode, State.withFetchWord, fetch_placeWord h, hd]
  have hh : (s.withFetchWord nbits w).halted = false := rfl
  simp [step, hf, hh]

/-- What a meaning can do, once for all: it ends in a Commit of some `next_pc` over a state that has the old `pc`, and
differs from the old one by at most one register write or one memory write (10_state.md R24, 20_memory.md R44). -/
theorem exec_cases (i : Instr) (s : State) :
    (∃ d v, exec i s = .next (commit (fallThrough s.pc) (s.writeReg d v))) ∨
    (∃ a v, exec i s = .next (commit (fallThrough s.pc) (s.writeMem a v))) ∨
    (∃ v n, n.toNat < 8192 ∧ exec i s = .next (commit n (s.writeReg 7 v))) ∨
    (∃ n, n.toNat < 8192 ∧ exec i s = .next (commit n s)) ∨
    (∃ off, exec i s = .next (commit (branchTarget s.pc off) s)) ∨
    exec i s = .next (commit (fallThrough s.pc) s) := by
  cases i with
  | add d a b => exact .inl ⟨d, _, writeBack_eq ..⟩
  | sub d a b => exact .inl ⟨d, _, writeBack_eq ..⟩
  | or d a b => exact .inl ⟨d, _, writeBack_eq ..⟩
  | and d a b => exact .inl ⟨d, _, writeBack_eq ..⟩
  | slt d a b => exact .inl ⟨d, _, writeBack_eq ..⟩
  | addi d a imm => exact .inl ⟨d, _, writeBack_eq ..⟩
  | slti d a imm => exact .inl ⟨d, _, writeBack_eq ..⟩
  | lw d a imm => exact .inl ⟨d, _, writeBack_eq ..⟩
  | sw b a imm => exact .inr (.inl ⟨_, _, rfl⟩)
  | jal t => exact .inr (.inr (.inl ⟨_, _, by rw [zext13_toNat]; exact t.isLt, rfl⟩))
  | j t => exact .inr (.inr (.inr (.inl ⟨_, by rw [zext13_toNat]; exact t.isLt, rfl⟩)))
  | jr a ign => exact .inr (.inr (.inr (.inl ⟨_, by rw [jrTarget_toNat]; omega, rfl⟩)))
  | jeq a b off =>
    by_cases h : s.readReg a = s.readReg b
    · exact .inr (.inr (.inr (.inr (.inl ⟨off, if_pos h⟩))))
    · exact .inr (.inr (.inr (.inr (.inr (if_neg h)))))
  | reservedSub0101 _ => exact .inr (.inr (.inr (.inr (.inr rfl))))
  | reservedSub0110 _ => exact .inr (.inr (.inr (.inr (.inr rfl))))
  | reservedSub0111 _ => exact .inr (.inr (.inr (.inr (.inr rfl))))
  | reservedSub1001 _ => exact .inr (.inr (.inr (.inr (.inr rfl))))
  | reservedSub1010 _ => exact .inr (.inr (.inr (.inr (.inr rfl))))
  | reservedSub1011 _ => exact .inr (.inr (.inr (.inr (.inr rfl))))
  | reservedSub1100 _ => exact .inr (.inr (.inr (.inr (.inr rfl))))
  | reservedSub1101 _ => exact .inr (.inr (.inr (.inr (.inr rfl))))
  | reservedSub1110 _ => exact .inr (.inr (.inr (.inr (.inr rfl))))
  | reservedSub1111 _ => exact .inr (.inr (.inr (.inr (.inr rfl))))

end Sys2Proof.Machine
end

