-- ==== Sys2Proof/Laws/PerInstr.lean ====
section
/-! SUPPORT. Statements made per instruction: the encoder's word fits the match and mask of the instruction's row of
spec/opcode_table.json. -/

namespace Sys2Proof.Laws.EncodingFitsTableRow

/-- The row's mask and match, copied from the table. -/
def rowOf : Instr → Word × Word
  | .add _ _ _ => (0xE00F#16, 0x0000#16)
  | .sub _ _ _ => (0xE00F#16, 0x0001#16)
  | .or _ _ _ => (0xE00F#16, 0x0002#16)
  | .and _ _ _ => (0xE00F#16, 0x0003#16)
  | .slt _ _ _ => (0xE00F#16, 0x0004#16)
  | .jr _ _ => (0xE00F#16, 0x0008#16)
  | .addi _ _ _ => (0xE000#16, 0x2000#16)
  | .j _ => (0xE000#16, 0x4000#16)
  | .jal _ => (0xE000#16, 0x6000#16)
  | .lw _ _ _ => (0xE000#16, 0x8000#16)
  | .sw _ _ _ => (0xE000#16, 0xA000#16)
  | .jeq _ _ _ => (0xE000#16, 0xC000#16)
  | .slti _ _ _ => (0xE000#16, 0xE000#16)
  | .reservedSub0101 _ => (0xE00F#16, 0x0005#16)
  | .reservedSub0110 _ => (0xE00F#16, 0x0006#16)
  | .reservedSub0111 _ => (0xE00F#16, 0x0007#16)
  | .reservedSub1001 _ => (0xE00F#16, 0x0009#16)
  | .reservedSub1010 _ => (0xE00F#16, 0x000A#16)
  | .reservedSub1011 _ => (0xE00F#16, 0x000B#16)
  | .reservedSub1100 _ => (0xE00F#16, 0x000C#16)
  | .reservedSub1101 _ => (0xE00F#16, 0x000D#16)
  | .reservedSub1110 _ => (0xE00F#16, 0x000E#16)
  | .reservedSub1111 _ => (0xE00F#16, 0x000F#16)

/-- The fixed bits of the row stand in the word. -/
def Statement (i : Instr) : Prop := encode i &&& (rowOf i).1 = (rowOf i).2

theorem rrr_fits (a b d : Reg) (sub : BitVec 4) : encodeRRR a b d sub &&& 0xE00F#16 = sub.setWidth 16 := by
  apply BitVec.eq_of_toNat_eq
  rw [and_subMask_toNat, encodeRRR_toNat, BitVec.toNat_setWidth]
  omega

theorem reserved_fits (ignored : BitVec 9) (sub : BitVec 4) :
    encodeReserved ignored sub &&& 0xE00F#16 = sub.setWidth 16 := by
  apply BitVec.eq_of_toNat_eq
  rw [and_subMask_toNat, encodeReserved_toNat, BitVec.toNat_setWidth]
  omega

theorem rri_fits (opcode : BitVec 3) (a r : Reg) (imm : Imm7) :
    encodeRRI opcode a r imm &&& 0xE000#16 = opcode ++ 0#13 := by
  apply BitVec.eq_of_toNat_eq
  rw [and_opcodeMask_toNat, encodeRRI_toNat, append_toNat, BitVec.toNat_ofNat]
  omega

theorem j_fits (opcode : BitVec 3) (target : Imm13) : encodeJ opcode target &&& 0xE000#16 = opcode ++ 0#13 := by
  apply BitVec.eq_of_toNat_eq
  rw [and_opcodeMask_toNat, encodeJ_toNat, append_toNat, BitVec.toNat_ofNat]
  omega

theorem add (d a b : Reg) : Statement (.add d a b) := rrr_fits a b d _
theorem sub (d a b : Reg) : Statement (.sub d a b) := rrr_fits a b d _
theorem or (d a b : Reg) : Statement (.or d a b) := rrr_fits a b d _
theorem and (d a b : Reg) : Statement (.and d a b) := rrr_fits a b d _
theorem slt (d a b : Reg) : Statement (.slt d a b) := rrr_fits a b d _
theorem jr (a : Reg) (ignored : BitVec 6) : Statement (.jr a ignored) := by
  apply BitVec.eq_of_toNat_eq
  rw [rowOf, and_subMask_toNat, encode_jr_toNat]
  simp only [BitVec.toNat_ofNat]
  omega
theorem addi (d a : Reg) (imm : Imm7) : Statement (.addi d a imm) := rri_fits _ a d imm
theorem j (target : Imm13) : Statement (.j target) := j_fits _ target
theorem jal (target : Imm13) : Statement (.jal target) := j_fits _ target
theorem lw (d a : Reg) (imm : Imm7) : Statement (.lw d a imm) := rri_fits _ a d imm
theorem sw (b a : Reg) (imm : Imm7) : Statement (.sw b a imm) := rri_fits _ a b imm
theorem jeq (a b : Reg) (off : Imm7) : Statement (.jeq a b off) := rri_fits _ a b off
theorem slti (d a : Reg) (imm : Imm7) : Statement (.slti d a imm) := rri_fits _ a d imm
theorem reservedSub0101 (ignored : BitVec 9) : Statement (.reservedSub0101 ignored) := reserved_fits ignored _
theorem reservedSub0110 (ignored : BitVec 9) : Statement (.reservedSub0110 ignored) := reserved_fits ignored _
theorem reservedSub0111 (ignored : BitVec 9) : Statement (.reservedSub0111 ignored) := reserved_fits ignored _
theorem reservedSub1001 (ignored : BitVec 9) : Statement (.reservedSub1001 ignored) := reserved_fits ignored _
theorem reservedSub1010 (ignored : BitVec 9) : Statement (.reservedSub1010 ignored) := reserved_fits ignored _
theorem reservedSub1011 (ignored : BitVec 9) : Statement (.reservedSub1011 ignored) := reserved_fits ignored _
theorem reservedSub1100 (ignored : BitVec 9) : Statement (.reservedSub1100 ignored) := reserved_fits ignored _
theorem reservedSub1101 (ignored : BitVec 9) : Statement (.reservedSub1101 ignored) := reserved_fits ignored _
theorem reservedSub1110 (ignored : BitVec 9) : Statement (.reservedSub1110 ignored) := reserved_fits ignored _
theorem reservedSub1111 (ignored : BitVec 9) : Statement (.reservedSub1111 ignored) := reserved_fits ignored _

end Sys2Proof.Laws.EncodingFitsTableRow
end

