-- ==== Sys2Proof/Laws/Run.lean ====
section
/-! SUPPORT. A run, one step at a time. -/

namespace Sys2Proof.Machine

@[simp] theorem run_zero (s : State) : Sys2Proof.core.run 0 s = .next s := rfl

/-- One step of a run of any machine. -/
theorem core_run_succ_of_next (M : Host.Core) {s t : M.State} (h : M.step s = .next t) (n : Nat) :
    M.run (n + 1) s = M.run n t := by
  rw [Host.Core.run, h]

theorem core_run_succ_of_fault (M : Host.Core) {s : M.State} {r : M.Fault} (h : M.step s = .fault r) (n : Nat) :
    M.run (n + 1) s = .fault r := by
  rw [Host.Core.run, h]

/-- A run whose first step answers a next state goes on from there. -/
theorem run_succ_of_next {s t : State} (h : step s = .next t) (n : Nat) :
    Sys2Proof.core.run (n + 1) s = Sys2Proof.core.run n t :=
  core_run_succ_of_next Sys2Proof.core h n

/-- A run whose first step faults ends in that fault. -/
theorem run_succ_of_fault {s : State} {r : Fault} (h : step s = .fault r) (n : Nat) :
    Sys2Proof.core.run (n + 1) s = .fault r :=
  core_run_succ_of_fault Sys2Proof.core h n

end Sys2Proof.Machine
end

