-- ==== Sys2Proof/Tests/Slice0.lean ====
section
/-! SUPPORT. The model's own tests. Words are written out bit by bit from 30_encoding.md R61 to R68; expected results are
the rows of 95_test_vectors.md named in each comment. Then the witnesses: for every statement with hypotheses, a state and
operands that meet them. -/

namespace Sys2Proof.Tests

open Sys2Proof.Machine

/-- One field of the next state. -/
def after {α : Type} (o : Host.Outcome State Fault Refusal) (f : State → α) : Option α :=
  match o with
  | .next t => some (f t)
  | .fault _ => none
  | .refused _ => none

/-- The reset state with `pc`, `$1` and `$2` given. -/
def base (pc v1 v2 : Word) : State := { (State.reset.writeReg 1 v1).writeReg 2 v2 with pc := pc }

/-- `base` about to run the word `w`. -/
def run1 (pc v1 v2 : Word) (w : Nat) : State := (base pc v1 v2).withFetchWord 16 w

/-! ## Decoding -/

theorem test_decode_add : decode 0b000_001_010_011_0000#16 = .ok (.add 3 1 2) := by decide
theorem test_decode_sub : decode 0b000_010_001_101_0001#16 = .ok (.sub 5 2 1) := by decide
theorem test_decode_or : decode 0b000_001_010_011_0010#16 = .ok (.or 3 1 2) := by decide
theorem test_decode_and : decode 0b000_001_010_100_0011#16 = .ok (.and 4 1 2) := by decide
theorem test_decode_slt : decode 0b000_001_010_100_0100#16 = .ok (.slt 4 1 2) := by decide
theorem test_decode_jr : decode 0b000_111_000_000_1000#16 = .ok (.jr 7 0#6) := by decide
theorem test_decode_jr_ignored_bits : decode 0b000_111_101_011_1000#16 = .ok (.jr 7 0b101_011#6) := by decide
theorem test_decode_addi : decode 0b001_000_001_0000101#16 = .ok (.addi 1 0 5#7) := by decide
theorem test_decode_j : decode 0b010_1000000000001#16 = .ok (.j 4097#13) := by decide
theorem test_decode_jal : decode 0b011_0000000000101#16 = .ok (.jal 5#13) := by decide
theorem test_decode_lw : decode 0b100_010_011_0010000#16 = .ok (.lw 3 2 16#7) := by decide
theorem test_decode_sw : decode 0b101_001_010_0010000#16 = .ok (.sw 2 1 16#7) := by decide
theorem test_decode_jeq : decode 0b110_001_010_1000000#16 = .ok (.jeq 1 2 64#7) := by decide
theorem test_decode_slti : decode 0b111_001_011_1111111#16 = .ok (.slti 3 1 127#7) := by decide
theorem test_decode_reservedSub0101 : decode 0b000_001_010_101_0101#16 = .ok (.reservedSub0101 0b001_010_101#9) := by decide
theorem test_decode_reservedSub0110 : decode 0b000_001_010_101_0110#16 = .ok (.reservedSub0110 0b001_010_101#9) := by decide
theorem test_decode_reservedSub0111 : decode 0b000_001_010_101_0111#16 = .ok (.reservedSub0111 0b001_010_101#9) := by decide
theorem test_decode_reservedSub1001 : decode 0b000_001_010_101_1001#16 = .ok (.reservedSub1001 0b001_010_101#9) := by decide
theorem test_decode_reservedSub1010 : decode 0b000_001_010_101_1010#16 = .ok (.reservedSub1010 0b001_010_101#9) := by decide
theorem test_decode_reservedSub1011 : decode 0b000_001_010_101_1011#16 = .ok (.reservedSub1011 0b001_010_101#9) := by decide
theorem test_decode_reservedSub1100 : decode 0b000_001_010_101_1100#16 = .ok (.reservedSub1100 0b001_010_101#9) := by decide
theorem test_decode_reservedSub1101 : decode 0b000_001_010_101_1101#16 = .ok (.reservedSub1101 0b001_010_101#9) := by decide
theorem test_decode_reservedSub1110 : decode 0b000_001_010_101_1110#16 = .ok (.reservedSub1110 0b001_010_101#9) := by decide
theorem test_decode_reservedSub1111 : decode 0b000_001_010_101_1111#16 = .ok (.reservedSub1111 0b001_010_101#9) := by decide

/-- The extreme words (R70, R92). -/
theorem test_decode_all_ones : decode 0xFFFF#16 = .ok (.slti 7 7 127#7) := by decide
theorem test_decode_zero : decode 0x0000#16 = .ok (.add 0 0 0) := by decide

theorem test_decodeTableWord : decodeTableWord 16 0x0530 = some (.add 3 1 2) := by decide
theorem test_decodeTableWord_short : decodeTableWord 8 0x30 = some (.add 3 0 0) := by decide

/-! ## One step of each instruction -/

/-- V-A2 -/
theorem test_add_wraps : after (step (run1 0#16 0xFFFF#16 0x0001#16 0x0530)) (fun t => (t.readReg 3, t.pc, t.halted)) = some ((0#16, 1#16, false)) := by decide
/-- V-A3 -/
theorem test_add_source_is_destination : after (step (run1 0#16 0xFFFF#16 0#16 0x0490)) (fun t => (t.readReg 1, t.pc, t.halted)) = some ((0xFFFE#16, 1#16, false)) := by decide
/-- V-A5 -/
theorem test_sub_borrows : after (step (run1 0#16 0#16 1#16 0x0531)) (fun t => (t.readReg 3, t.pc, t.halted)) = some ((0xFFFF#16, 1#16, false)) := by decide
/-- V-A8 -/
theorem test_or : after (step (run1 0#16 0x003C#16 0xFFFD#16 0x0532)) (fun t => (t.readReg 3, t.pc, t.halted)) = some ((0xFFFD#16, 1#16, false)) := by decide
/-- V-A11 -/
theorem test_and : after (step (run1 0#16 0xF0F0#16 0x0FF0#16 0x0543)) (fun t => (t.readReg 4, t.pc, t.halted)) = some ((0x00F0#16, 1#16, false)) := by decide
/-- V-A12 -/
theorem test_slt_unsigned : after (step (run1 0#16 0xFFFF#16 1#16 0x0544)) (fun t => (t.readReg 4, t.pc, t.halted)) = some ((0#16, 1#16, false)) := by decide
/-- V-A13 -/
theorem test_slt_less : after (step (run1 0#16 1#16 0xFFFF#16 0x0544)) (fun t => (t.readReg 4, t.pc, t.halted)) = some ((1#16, 1#16, false)) := by decide
/-- V-A4, E4 -/
theorem test_add_to_register_zero : after (step (run1 0#16 7#16 9#16 0x0500)) (fun t => (t.x.toList, t.pc)) = some (([0#16, 7#16, 9#16, 0#16, 0#16, 0#16, 0#16, 0#16], 1#16)) := by decide
/-- V-I2, E3 -/
theorem test_addi_negative : after (step (run1 0#16 0#16 0#16 0x20C0)) (fun t => (t.readReg 1, t.pc, t.halted)) = some ((0xFFC0#16, 1#16, false)) := by decide
/-- V-I3, E2 -/
theorem test_addi_wraps : after (step (run1 0#16 0xFFFF#16 0#16 0x2481)) (fun t => (t.readReg 1, t.pc, t.halted)) = some ((0#16, 1#16, false)) := by decide
/-- V-I7 -/
theorem test_slti_negative_is_large : after (step (run1 0#16 0xFFC0#16 0#16 0xE5FF)) (fun t => (t.readReg 3, t.pc, t.halted)) = some ((1#16, 1#16, false)) := by decide
/-- V-I11 -/
theorem test_slti_equal : after (step (run1 0#16 0xFFC0#16 0#16 0xE5C0)) (fun t => (t.readReg 3, t.pc, t.halted)) = some ((0#16, 1#16, false)) := by decide
/-- V-H4 -/
theorem test_j_to_itself_halts : after (step (run1 3#16 0#16 0#16 0x4003)) (fun t => (t.pc, t.halted)) = some ((3#16, true)) := by decide
/-- V-C3 -/
theorem test_j_above_memory_does_not_halt : after (step (run1 8192#16 0#16 0#16 0x4000)) (fun t => (t.pc, t.halted)) = some ((0#16, false)) := by decide
/-- V-C6 -/
theorem test_jal_to_itself : after (step (run1 7#16 0#16 0#16 0x6007)) (fun t => (t.readReg 7, t.pc, t.halted)) = some ((8#16, 7#16, true)) := by decide
/-- V-C8 -/
theorem test_jal_link_wraps : after (step (run1 65535#16 0#16 0#16 0x6005)) (fun t => (t.readReg 7, t.pc, t.halted)) = some ((0#16, 5#16, false)) := by decide
/-- V-C10 -/
theorem test_jr_drops_high_bits : after (step (run1 0#16 0xFFFF#16 0#16 0x0408)) (fun t => (t.pc, t.halted)) = some ((8191#16, false)) := by decide
/-- V-C11 -/
theorem test_jr_to_itself_halts : after (step (run1 20#16 0x2014#16 0#16 0x0408)) (fun t => (t.pc, t.halted)) = some ((20#16, true)) := by decide
/-- V-C16 -/
theorem test_jeq_backwards_below_zero : after (step (run1 0#16 0#16 0#16 0xC07E)) (fun t => (t.pc, t.halted)) = some ((65535#16, false)) := by decide
/-- V-H11 -/
theorem test_jeq_not_taken : after (step (run1 4#16 1#16 2#16 0xC57F)) (fun t => (t.pc, t.halted)) = some ((5#16, false)) := by decide
/-- V-M3 -/
theorem test_lw_address_wraps : after (step ((run1 100#16 0xFFFF#16 0#16 0x8581).writeMem 0#13 0x1111#16)) (fun t => (t.readReg 3, t.pc, t.halted)) = some ((0x1111#16, 101#16, false)) := by decide
/-- V-M4 -/
theorem test_lw_old_base : after (step ((run1 0#16 8#16 0#16 0x8482).writeMem 10#13 0x0ABC#16)) (fun t => (t.readReg 1, t.pc, t.halted)) = some ((0x0ABC#16, 1#16, false)) := by decide
/-- V-M8 -/
theorem test_sw_address_wraps : after (step (run1 0#16 0x000A#16 0xCAFE#16 0xA540)) (fun t => (t.mem, t.pc, t.halted)) = some (([(0, 0xA540#16), (8138, 0xCAFE#16)], 1#16, false)) := by decide
/-- V-M9 -/
theorem test_sw_zero : after (step ((run1 0#16 0#16 0#16 0xA003).writeMem 3#13 0xFFFF#16)) (fun t => (t.mem, t.pc)) = some (([(0, 0xA003#16)], 1#16)) := by decide
/-- V-A16 -/
theorem test_reservedSub0101 : after (step (run1 0#16 1#16 2#16 0x0555)) (fun t => (t.x.toList, t.mem, t.pc, t.halted)) = some (([0#16, 1#16, 2#16, 0#16, 0#16, 0#16, 0#16, 0#16], [(0, 0x0555#16)], 1#16, false)) := by decide
/-- as V-A16 -/
theorem test_reservedSub0110 : after (step (run1 0#16 1#16 2#16 0x0556)) (fun t => (t.x.toList, t.mem, t.pc, t.halted)) = some (([0#16, 1#16, 2#16, 0#16, 0#16, 0#16, 0#16, 0#16], [(0, 0x0556#16)], 1#16, false)) := by decide
/-- as V-A16 -/
theorem test_reservedSub0111 : after (step (run1 0#16 1#16 2#16 0x0557)) (fun t => (t.x.toList, t.mem, t.pc, t.halted)) = some (([0#16, 1#16, 2#16, 0#16, 0#16, 0#16, 0#16, 0#16], [(0, 0x0557#16)], 1#16, false)) := by decide
/-- as V-A16 -/
theorem test_reservedSub1001 : after (step (run1 0#16 1#16 2#16 0x0559)) (fun t => (t.x.toList, t.mem, t.pc, t.halted)) = some (([0#16, 1#16, 2#16, 0#16, 0#16, 0#16, 0#16, 0#16], [(0, 0x0559#16)], 1#16, false)) := by decide
/-- as V-A16 -/
theorem test_reservedSub1010 : after (step (run1 0#16 1#16 2#16 0x055A)) (fun t => (t.x.toList, t.mem, t.pc, t.halted)) = some (([0#16, 1#16, 2#16, 0#16, 0#16, 0#16, 0#16, 0#16], [(0, 0x055A#16)], 1#16, false)) := by decide
/-- as V-A16 -/
theorem test_reservedSub1011 : after (step (run1 0#16 1#16 2#16 0x055B)) (fun t => (t.x.toList, t.mem, t.pc, t.halted)) = some (([0#16, 1#16, 2#16, 0#16, 0#16, 0#16, 0#16, 0#16], [(0, 0x055B#16)], 1#16, false)) := by decide
/-- as V-A16 -/
theorem test_reservedSub1100 : after (step (run1 0#16 1#16 2#16 0x055C)) (fun t => (t.x.toList, t.mem, t.pc, t.halted)) = some (([0#16, 1#16, 2#16, 0#16, 0#16, 0#16, 0#16, 0#16], [(0, 0x055C#16)], 1#16, false)) := by decide
/-- as V-A16 -/
theorem test_reservedSub1101 : after (step (run1 0#16 1#16 2#16 0x055D)) (fun t => (t.x.toList, t.mem, t.pc, t.halted)) = some (([0#16, 1#16, 2#16, 0#16, 0#16, 0#16, 0#16, 0#16], [(0, 0x055D#16)], 1#16, false)) := by decide
/-- as V-A16 -/
theorem test_reservedSub1110 : after (step (run1 0#16 1#16 2#16 0x055E)) (fun t => (t.x.toList, t.mem, t.pc, t.halted)) = some (([0#16, 1#16, 2#16, 0#16, 0#16, 0#16, 0#16, 0#16], [(0, 0x055E#16)], 1#16, false)) := by decide
/-- as V-A16 -/
theorem test_reservedSub1111 : after (step (run1 0#16 1#16 2#16 0x055F)) (fun t => (t.x.toList, t.mem, t.pc, t.halted)) = some (([0#16, 1#16, 2#16, 0#16, 0#16, 0#16, 0#16, 0#16], [(0, 0x055F#16)], 1#16, false)) := by decide
/-- V-H3: fetch at 65535 reads `mem[8191]`, and the pc wraps to 0. -/
theorem test_fetch_wraps : after (step (run1 65535#16 0#16 0#16 0x2081)) (fun t => (t.mem, t.readReg 1, t.pc)) =
    some ([(8191, 0x2081#16)], 1#16, 0#16) := by decide

/-- V-H7, V-H8: the two readings of the halt comparison. -/
theorem test_halt_readings : ((commitWith false 8192#16 (base 8192#16 0#16 0#16)).halted,
    (commitWith true 8192#16 (base 8192#16 0#16 0#16)).halted) = (false, true) := by decide

/-- A halted core takes no step (40_cycle.md R89), and a placed word is run all the same (log 9). -/
theorem test_halted_core_is_stuck : after (step { State.reset with halted := true }) State.pc = none := by decide
theorem test_withFetchWord_runs : after (step (({ State.reset with halted := true }).withFetchWord 16 0x4064)) State.pc =
    some 100#16 := by decide

/-! ## Well-formedness: one ill-formed line for each check -/

theorem test_register_8_refused : (Source.add 8 0 0).wellFormed 0 = false := by decide
theorem test_source_register_refused : (Source.jr 9).wellFormed 0 = false := by decide
theorem test_immediate_128_refused : (Source.addi 1 0 128).wellFormed 0 = false := by decide
theorem test_immediate_minus_65_refused : (Source.lw 1 (-65) 0).wellFormed 0 = false := by decide
theorem test_target_8192_refused : (Source.j 8192).wellFormed 0 = false := by decide
theorem test_label_too_far_refused : (Source.jeqLabel 0 0 65).wellFormed 0 = false := by decide
theorem test_halt_above_memory_refused : Source.halt.wellFormed 8192 = false := by decide
theorem test_fill_65536_refused : (Source.fill 65536).wellFormed 0 = false := by decide
theorem test_ill_formed_line_has_no_word : assemble 0 (.j 8192) = none := by decide

/-- 30_encoding.md R73: the raw pattern 64 is -64. -/
theorem test_raw_immediate : assemble 0 (.addi 1 0 64) = assemble 0 (.addi 1 0 (-64)) := by decide
/-- 95_test_vectors.md P1, P2, P4: lines and their words. -/
theorem test_assemble : [assemble 4 (.jeqLabel 1 0 6), assemble 6 (.sw 2 16 0), assemble 4 .halt, assemble 6 (.jeq 0 0 (-1)),
    assemble 7 (.jr 7), assemble 0 (.fill (-1))] =
    [some 0xC401#16, some 0xA110#16, some 0x4004#16, some 0xC07F#16, some 0x1C08#16, some 0xFFFF#16] := by decide

/-! ## The host interface -/

/-- E6: the address sequence 0, 1, 3 is rejected, and the core takes no step. -/
theorem test_image_with_a_gap_rejected : State.boot [(0, 1#16), (1, 1#16), (3, 1#16)] = none := by decide
/-- E5, the image's first words. -/
theorem test_boot : (State.boot [(0, 0x2085#16), (1, 0x2103#16)]).map State.mem = some [(0, 0x2085#16), (1, 0x2103#16)] := by
  decide
/-- E3: the literal of 0x20C0, most significant bit first. -/
theorem test_literal : wordOfLiteral ['0', '0', '1', '0', '0', '0', '0', '0', '1', '1', '0', '0', '0', '0', '0', '0'] =
    some 0x20C0#16 := by decide
theorem test_literal_too_short : wordOfLiteral ['0', '1'] = none := by decide

/-! ## Witnesses -/

theorem witness_EncodeInvertsDecode : decode 0xFFFF#16 = .ok (.slti 7 7 127#7) := by decide

theorem witness_IgnoredBitsHaveNoEffect_jr : decode 0x1C08#16 = .ok (.jr 7 0#6) ∧ decode 0x1FF8#16 = .ok (.jr 7 63#6) ∧
    0x1C08#16 &&& 0xE00F#16 = 0x1FF8#16 &&& 0xE00F#16 ∧ 0x1C08#16 &&& 0xE00F#16 = 0x0008#16 ∧
    0x1C08#16 &&& 0x1C00#16 = 0x1FF8#16 &&& 0x1C00#16 := by decide
theorem witness_IgnoredBitsHaveNoEffect_reserved : decode 0x0005#16 = .ok (.reservedSub0101 0#9) ∧
    decode 0x1FF5#16 = .ok (.reservedSub0101 511#9) ∧ 0x0005#16 &&& 0xE00F#16 = 0x1FF5#16 &&& 0xE00F#16 ∧
    0x0005#16 &&& 0xE00F#16 ∈ [0x0005#16, 0x0006#16, 0x0007#16, 0x0009#16, 0x000A#16, 0x000B#16, 0x000C#16, 0x000D#16,
      0x000E#16, 0x000F#16] := by decide

/-- Every clause of the result statements with a premise: a destination that is not 0, an address that wraps, a canonical
memory, registers that are equal and registers that are not. -/
theorem witness_resultStatements : (7 : Reg) ≠ 0 ∧
    ((0#13 : Addr).toNat : Int) = (((base 0#16 0xFFFF#16 0#16).readReg 1).toNat + immValue 1#7) % 8192 ∧
    State.reset.mem.wf = true ∧ (base 0#16 5#16 5#16).readReg 1 = (base 0#16 5#16 5#16).readReg 2 ∧
    (base 0#16 5#16 6#16).readReg 1 ≠ (base 0#16 5#16 6#16).readReg 2 := by decide

/-- At `pc` 8197 the fetch address is 5. -/
theorem witness_StepRunsTheFetchedInstruction : (run1 8197#16 0#16 0#16 0x2085).halted = false ∧
    (5#13 : Addr).toNat = (run1 8197#16 0#16 0#16 0x2085).pc.toNat % 8192 ∧
    decode ((run1 8197#16 0#16 0#16 0x2085).readMem 5#13) = .ok (.addi 1 0 5#7) := by decide

theorem witness_EnabledStepsComplete : State.reset.halted = false ∧ ({ State.reset with halted := true }).halted = true := by
  decide

/-- For `NextPcOfEveryInstruction`, `AtMostOneRegisterIsWritten`, `OnlySwChangesMemory` and `HaltsExactlyOnSelfTarget`: the
instruction completes, is no SW, and writes another register than `$1`. -/
theorem witness_execStatements : (∃ t, exec (.add 3 1 2) State.reset = .next t) ∧ destReg (.add 3 1 2) ≠ some 1 ∧
    ∀ b a imm, (.add 3 1 2 : Instr) ≠ .sw b a imm :=
  ⟨⟨_, rfl⟩, by decide, fun _ _ _ h => by cases h⟩
/-- A self-target at 8191, the highest address that halts. -/
theorem witness_HaltsExactlyOnSelfTarget : (∃ t, exec (.j 8191#13) (base 8191#16 0#16 0#16) = .next t ∧ t.halted = true) ∧
    SelfTarget (.j 8191#13) (base 8191#16 0#16 0#16) :=
  ⟨⟨_, rfl, by decide⟩, rfl⟩
/-- For `RegisterZeroIsZeroAfterEveryStep` and `InvariantKeptByEveryStep`. -/
theorem witness_InvariantKeptByEveryStep : (run1 3#16 0#16 0#16 0x4003).Inv ∧
    after (step (run1 3#16 0#16 0#16 0x4003)) State.halted = some true := by decide

theorem witness_NoStepHaltsAbove8191 : 8192 ≤ (run1 8192#16 0#16 0#16 0x4000).pc.toNat ∧
    after (step (run1 8192#16 0#16 0#16 0x4000)) State.pc = some 0#16 := by decide
theorem witness_SelfBranchAbove8191RunsForever : (run1 8192#16 0#16 0#16 0xC07F).halted = false ∧
    8192 ≤ (run1 8192#16 0#16 0#16 0xC07F).pc.toNat ∧ immValue 127#7 = -1 ∧
    (run1 8192#16 0#16 0#16 0xC07F).fetchDecode = .ok (.jeq 0 0 127#7) := by decide
theorem witness_HaltReadingsCompared : (8191#16).toNat < 8192 ∧ 8192 ≤ (8192#16).toNat := by decide
theorem witness_HaltingStepLeavesItsOwnPc :
    after (step (run1 8191#16 0#16 0#16 0xC07F)) State.halted = some true := by decide

/-- SW at 1 stores the word of `J 2` (0x4002) at 2, the next address. -/
theorem witness_StoredWordIsFetchedByTheNextStep : (run1 1#16 0x4002#16 0#16 0xA082).mem.wf = true ∧
    (run1 1#16 0x4002#16 0#16 0xA082).halted = false ∧ (run1 1#16 0x4002#16 0#16 0xA082).fetchDecode = .ok (.sw 1 0 2#7) ∧
    decode ((run1 1#16 0x4002#16 0#16 0xA082).readReg 1) = .ok (.j 2#13) ∧
    (effectiveAddr ((run1 1#16 0x4002#16 0#16 0xA082).readReg 0) 2#7).toNat =
      ((run1 1#16 0x4002#16 0#16 0xA082).pc.toNat + 1) % 8192 := by decide
/-- Two memories with one history each, that read alike. -/
theorem witness_EqualMemoriesAreEqualData : (State.reset.writeMem 5#13 0#16).mem.wf = true ∧ State.reset.mem.wf = true ∧
    ∀ c : Addr, (State.reset.writeMem 5#13 0#16).readMem c = State.reset.readMem c :=
  ⟨by decide, by decide, fun _ => rfl⟩
theorem witness_StepIsTheSpecsStep : (run1 0#16 1#16 2#16 0x0530).Inv ∧ (run1 0#16 1#16 2#16 0x0530).halted = false := by
  decide
theorem witness_AnEndedRunTakesNoStep : ∃ t, RunEnds 1 (run1 0#16 0#16 0#16 0x4000) t :=
  ⟨commit 0#16 (run1 0#16 0#16 0#16 0x4000), rfl, by decide⟩

theorem witness_AcceptedImagesAreConsecutive : acceptImage [(0, 7#16), (1, 8#16)] = some [7#16, 8#16] := by decide
theorem witness_BootLoadsTheImage : acceptImage [] = some [] ∧ acceptImage [(0, 7#16), (1, 8#16)] = some [7#16, 8#16] ∧
    acceptImage [(1, 7#16)] = none := by decide
theorem witness_HostReadsTheHaltedState : (8192 : Nat) ≤ 8192 ∧ ({ State.reset with halted := true }).halted = true ∧
    State.reset.halted = false ∧ (8191#13 : Addr).toNat < 8192 := by decide

theorem witness_ZeroWordIsANop : State.reset.halted = false ∧ State.reset.fetch = 0x0000#16 := by decide
theorem witness_HaltPseudoInstructionHalts : (run1 8191#16 0#16 0#16 0x5FFF).halted = false ∧
    (run1 8191#16 0#16 0#16 0x5FFF).pc.toNat < 8192 ∧
    assemble (run1 8191#16 0#16 0#16 0x5FFF).pc.toNat .halt = some 0x5FFF#16 ∧
    (run1 8191#16 0#16 0#16 0x5FFF).fetch = 0x5FFF#16 := by decide
/-- The four boundary values of the immediate, and a destination that is not 0. -/
theorem witness_MoviLoadsTheImmediate : (run1 0#16 0#16 0#16 0x20C0).halted = false ∧
    assemble 0 (.movi 1 (-64)) = some 0x20C0#16 ∧ assemble 0 (.movi 1 64) = some 0x20C0#16 ∧
    assemble 0 (.movi 1 63) = some 0x20BF#16 ∧ assemble 0 (.movi 1 127) = some 0x20FF#16 ∧ (1 : Nat) ≠ 0 ∧
    (run1 0#16 0#16 0#16 0x20C0).fetch = 0x20C0#16 := by decide
/-- The label farthest back, 63 words before the JEQ. -/
theorem witness_LabelBranchReachesTheLabel : (run1 100#16 9#16 9#16 0xC540).halted = false ∧
    assemble (run1 100#16 9#16 9#16 0xC540).pc.toNat (.jeqLabel 1 2 37) = some 0xC540#16 ∧
    (run1 100#16 9#16 9#16 0xC540).fetch = 0xC540#16 ∧
    (run1 100#16 9#16 9#16 0xC540).readReg (regOfNat 1) = (run1 100#16 9#16 9#16 0xC540).readReg (regOfNat 2) := by decide

end Sys2Proof.Tests
end

