-- ==== Sys2Proof/Proofs/HaltReadings.lean ====
section
/-! The two readings of the halt comparison (00_scope.md R8, 40_cycle.md R87). -/

namespace Sys2Proof.Machine

/-- The halt detector under the reading the spec rejects, `HALT_CMP_WRAPS_CURRENT` (D4); `haltDetect_false` is the
literal one. -/
theorem haltDetect_true (cur next : Word) :
    haltDetect true cur next = true ↔ next.toNat % 8192 = cur.toNat % 8192 := by
  simp [haltDetect]

/-- Below 8192 reducing `current_pc` changes nothing, so the readings agree. -/
theorem haltDetect_true_eq_false_of_lt {cur : Word} (h : cur.toNat < 8192) (next : Word) :
    haltDetect true cur next = haltDetect false cur next := by
  rw [Bool.eq_iff_iff, haltDetect_true, haltDetect_false, Nat.mod_eq_of_lt h]

/-- At 8192 and above the literal reading never fires: a reduced `next_pc` cannot reach `current_pc` (R87). -/
theorem haltDetect_false_of_le {cur : Word} (h : 8192 ≤ cur.toNat) (next : Word) :
    haltDetect false cur next = false := by
  have hlt : next.toNat % 8192 < 8192 := Nat.mod_lt _ (by decide)
  rw [Bool.eq_false_iff, Ne, haltDetect_false]
  omega

/-- The wrapping reading fires on every self-target, wherever it lies. -/
theorem haltDetect_true_self (cur : Word) : haltDetect true cur cur = true :=
  (haltDetect_true cur cur).mpr rfl

/-- Settles O30, by the side of 8192 on which `current_pc` lies. -/
theorem haltReadingsCompared : Obligations.HaltReadingsCompared := by
  intro cur next
  constructor
  · intro hlt
    exact haltDetect_true_eq_false_of_lt hlt next
  · intro hge
    exact ⟨haltDetect_false_of_le hge next, haltDetect_true_self cur⟩

end Sys2Proof.Machine
end

