-- ==== Sys2Proof/Proofs/StateAndInvariant.lean ====
section
/-! The state (10_state.md): what one step may change, the invariant it keeps, memories as data, and the state from
which a run starts. -/

namespace Sys2Proof.Machine

/-! ## What a step may change -/

/-- `u` differs from `s` by at most one register write or one memory write (10_state.md R24, 20_memory.md R44). -/
def AtMostOneWrite (s u : State) : Prop :=
  u = s ∨ (∃ d v, u = s.writeReg d v) ∨ ∃ a v, u = s.writeMem a v

/-- The values an instruction can give `next_pc` (40_cycle.md R83): a jump target below 8192, the default, a branch
target. -/
def PossibleNextPc (cur next : Word) : Prop :=
  next.toNat < 8192 ∨ next = fallThrough cur ∨ ∃ off, next = branchTarget cur off

/-- What a completed instruction answers: Commit of a possible `next_pc`, after at most one write. -/
theorem exec_next_cases {i : Instr} {s t : State} (h : exec i s = .next t) :
    ∃ n u, t = commit n u ∧ AtMostOneWrite s u ∧ PossibleNextPc s.pc n := by
  obtain ⟨d, v, e⟩ | ⟨a, v, e⟩ | ⟨v, n, hn, e⟩ | ⟨n, hn, e⟩ | ⟨off, e⟩ | e := exec_cases i s <;>
    cases e.symm.trans h
  · exact ⟨_, _, rfl, .inr (.inl ⟨d, v, rfl⟩), .inr (.inl rfl)⟩
  · exact ⟨_, _, rfl, .inr (.inr ⟨a, v, rfl⟩), .inr (.inl rfl)⟩
  · exact ⟨_, _, rfl, .inr (.inl ⟨7, v, rfl⟩), .inl hn⟩
  · exact ⟨_, _, rfl, .inl rfl, .inl hn⟩
  · exact ⟨_, _, rfl, .inl rfl, .inr (.inr ⟨off, rfl⟩)⟩
  · exact ⟨_, _, rfl, .inl rfl, .inr (.inl rfl)⟩

/-- A step that answers a next state ran an instruction on a core that had not halted (40_cycle.md R80). -/
theorem step_next_cases {s t : State} (h : step s = .next t) :
    s.halted = false ∧ ∃ i, s.fetchDecode = .ok i ∧ exec i s = .next t := by
  unfold step at h
  split at h
  next => cases h
  next hrunning =>
    split at h
    next i hdecode => exact ⟨Bool.eq_false_of_not_eq_true hrunning, i, hdecode, h⟩
    next => cases h

theorem AtMostOneWrite.pc_eq {s u : State} (h : AtMostOneWrite s u) : u.pc = s.pc := by
  obtain rfl | ⟨d, v, rfl⟩ | ⟨a, v, rfl⟩ := h
  · rfl
  · exact writeReg_pc s d v
  · rfl

theorem AtMostOneWrite.wf {s u : State} (h : AtMostOneWrite s u) (hs : s.mem.wf = true) : u.mem.wf = true := by
  obtain rfl | ⟨d, v, rfl⟩ | ⟨a, v, rfl⟩ := h
  · exact hs
  · rwa [writeReg_mem]
  · exact wf_writeMem hs a v

/-! ## Register 0 and the destination register -/

/-- Every completed instruction leaves 0 in the cell of register 0 (10_state.md R34, 40_cycle.md R86). -/
theorem exec_cell_zero {i : Instr} {s t : State} (h : exec i s = .next t) : t.x[(0 : Reg)] = 0#16 := by
  obtain ⟨n, u, rfl, -, -⟩ := exec_next_cases h
  exact commit_cell_zero n u

/-- Settles O26: the step ends in a Commit, which zeroes the cell, and the read port answers 0 for register 0. -/
theorem registerZeroIsZeroAfterEveryStep : Obligations.RegisterZeroIsZeroAfterEveryStep := by
  intro s t h
  obtain ⟨-, i, -, hexec⟩ := step_next_cases h
  exact ⟨exec_cell_zero hexec, readReg_zero t⟩

theorem readReg_of_writeBack {d r : Reg} {v : Word} {s t : State} (h : writeBack d v s = .next t) (hr : d ≠ r) :
    t.readReg r = s.readReg r := by
  cases (writeBack_eq d v s).symm.trans h
  rw [readReg_commit, readReg_writeReg_of_ne s v hr.symm]

theorem readReg_of_jumpTo {r : Reg} {n : Word} {s t : State} (h : jumpTo n s = .next t) :
    t.readReg r = s.readReg r := by
  cases h
  exact readReg_commit n s r

theorem readReg_of_retire {r : Reg} {s t : State} (h : retire s = .next t) : t.readReg r = s.readReg r :=
  readReg_of_jumpTo h

/-- Settles O24, by the way the instruction ends: a write-back of its destination, a link and a jump, a jump, or a
fall-through that writes no register. -/
theorem atMostOneRegisterIsWritten : Obligations.AtMostOneRegisterIsWritten := by
  intro i s t h r hr
  cases i with
  | add d | sub d | or d | and d | slt d | addi d | slti d | lw d =>
    exact readReg_of_writeBack h fun e => hr (congrArg some e)
  | jal target =>
    have hlink : r ≠ 7 := fun e => hr (congrArg some e.symm)
    rw [readReg_of_jumpTo h, readReg_writeReg_of_ne s _ hlink]
  | j | jr => exact readReg_of_jumpTo h
  | jeq a b off =>
    by_cases heq : s.readReg a = s.readReg b
    · exact readReg_of_jumpTo ((if_pos heq).symm.trans h)
    · exact readReg_of_retire ((if_neg heq).symm.trans h)
  | sw b a imm =>
    rw [readReg_of_retire h, readReg_writeMem]
  | reservedSub0101 | reservedSub0110 | reservedSub0111 | reservedSub1001 | reservedSub1010 | reservedSub1011
  | reservedSub1100 | reservedSub1101 | reservedSub1110 | reservedSub1111 => exact readReg_of_retire h

/-! ## The invariant -/

/-- Where the halt detector fires, `next_pc` is `current_pc` itself and not only equal to it modulo 8192 (40_cycle.md
R88): a fall-through never fires it, and a branch reaches no farther than 64 words. -/
theorem PossibleNextPc.eq_of_halt {cur next : Word} (h : PossibleNextPc cur next)
    (hhalt : haltDetect false cur next = true) : next = cur := by
  have hmod := (haltDetect_false cur next).mp hhalt
  apply BitVec.eq_of_toNat_eq
  obtain hlt | rfl | ⟨off, rfl⟩ := h
  · rwa [Nat.mod_eq_of_lt hlt] at hmod
  · exact absurd (hhalt.symm.trans (haltDetect_fallThrough cur)) Bool.false_ne_true.symm
  · have hoff := off.isLt
    rw [branchTarget_toNat, sext7_toNat] at hmod ⊢
    by_cases hforward : off.toNat < 64
    · rw [if_pos hforward] at hmod ⊢; omega
    · rw [if_neg hforward] at hmod ⊢; omega

/-- An instruction that halts the core leaves its own `pc`, which lies below 8192 (40_cycle.md R89, 70 R205). -/
theorem exec_halted_pc {i : Instr} {s t : State} (h : exec i s = .next t) (ht : t.halted = true) :
    t.pc = s.pc ∧ t.pc.toNat < 8192 := by
  obtain ⟨n, u, rfl, hu, hn⟩ := exec_next_cases h
  rw [commit_halted, hu.pc_eq] at ht
  have hself : n = s.pc := hn.eq_of_halt ht
  have hmod := (haltDetect_false s.pc n).mp ht
  rw [commit_pc]
  exact ⟨hself, by rw [hself] at hmod ⊢; omega⟩

/-- A completed instruction keeps the canonical form of the memory (log 2). -/
theorem exec_wf {i : Instr} {s t : State} (h : exec i s = .next t) (hs : s.mem.wf = true) : t.mem.wf = true := by
  obtain ⟨n, u, rfl, hu, -⟩ := exec_next_cases h
  exact hu.wf hs

/-- Settles O33, part by part: Commit zeroes the cell of register 0, at most one write keeps the canonical form, and a
halting instruction targets itself below 8192. -/
theorem invariantKeptByEveryStep : Obligations.InvariantKeptByEveryStep := by
  rintro s t ⟨-, hwf, -⟩ h
  obtain ⟨-, i, -, hexec⟩ := step_next_cases h
  exact ⟨exec_cell_zero hexec, exec_wf hexec hwf, fun ht => (exec_halted_pc hexec ht).2⟩

/-! ## Memories as data -/

theorem wfFrom_cons {lo a : Nat} {v : Word} {m : Memory} :
    Memory.wfFrom lo ((a, v) :: m) = true ↔ lo ≤ a ∧ a < 8192 ∧ v ≠ 0#16 ∧ Memory.wfFrom (a + 1) m = true := by
  simp only [Memory.wfFrom, Bool.and_eq_true, decide_eq_true_eq, and_assoc]

theorem read_cons_same (a : Nat) (v : Word) (m : Memory) : Memory.read ((a, v) :: m) a = v := if_pos rfl

theorem read_cons_of_ne {a c : Nat} (v : Word) (m : Memory) (h : c ≠ a) :
    Memory.read ((a, v) :: m) c = m.read c := if_neg h

/-- A memory whose word `a` is not 0 lists no first address above `a`. -/
theorem head_le_of_read_ne_zero {lo a b : Nat} {w : Word} {m : Memory} (h : Memory.wfFrom lo ((b, w) :: m) = true)
    (ha : Memory.read ((b, w) :: m) a ≠ 0#16) : b ≤ a := by
  obtain ⟨-, hb, hw, hm⟩ := wfFrom_cons.mp h
  by_contra hlt
  exact ha (read_of_lt (wfFrom_cons.mpr ⟨le_refl b, hb, hw, hm⟩) (Nat.lt_of_not_le hlt))

/-- Canonical memories that read alike are one list: each lists the other's first address, with the same word, and the
rest reads alike because it lists neither. -/
theorem eq_of_read_eq {m m' : Memory} {lo : Nat} (h : Memory.wfFrom lo m = true) (h' : Memory.wfFrom lo m' = true)
    (hread : ∀ a, m.read a = m'.read a) : m = m' := by
  induction m generalizing lo m' with
  | nil =>
    cases m' with
    | nil => rfl
    | cons e' m' =>
      obtain ⟨b, w⟩ := e'
      obtain ⟨-, -, hw, -⟩ := wfFrom_cons.mp h'
      exact absurd ((read_cons_same b w m').symm.trans (hread b).symm) hw
  | cons e m ih =>
    obtain ⟨a, v⟩ := e
    obtain ⟨-, -, hv, hm⟩ := wfFrom_cons.mp h
    cases m' with
    | nil => exact absurd ((read_cons_same a v m).symm.trans (hread a)) hv
    | cons e' m' =>
      obtain ⟨b, w⟩ := e'
      obtain ⟨-, -, hw, hm'⟩ := wfFrom_cons.mp h'
      have hba : b ≤ a := head_le_of_read_ne_zero h' (by rwa [← hread, read_cons_same])
      have hab : a ≤ b := head_le_of_read_ne_zero h (by rwa [hread, read_cons_same])
      obtain rfl : a = b := le_antisymm hab hba
      have hvw : v = w := by simpa only [read_cons_same] using hread a
      have hrest : ∀ c, Memory.read m c = Memory.read m' c := by
        intro c
        by_cases hc : c = a
        · rw [hc, read_of_lt hm (Nat.lt_succ_self a), read_of_lt hm' (Nat.lt_succ_self a)]
        · simpa only [read_cons_of_ne _ _ hc] using hread c
      rw [hvw, ih hm hm' hrest]

/-- Settles O36: the addresses of the memory are compared by the premise, and beyond them nothing is listed. -/
theorem equalMemoriesAreEqualData : Obligations.EqualMemoriesAreEqualData := by
  intro s t hs ht halike
  refine eq_of_read_eq ht hs fun a => ?_
  by_cases ha : a < 8192
  · have hat := halike (BitVec.ofNat 13 a)
    rwa [State.readMem, State.readMem, BitVec.toNat_ofNat, Nat.mod_eq_of_lt ha] at hat
  · rw [read_of_memWords_le ht (Nat.le_of_not_lt ha), read_of_memWords_le hs (Nat.le_of_not_lt ha)]

/-! ## Reset and boot -/

theorem reset_cell (r : Reg) : State.reset.x[r] = 0#16 := by simp

theorem reset_readMem (a : Addr) : State.reset.readMem a = 0#16 := rfl

/-- In a state with the registers of reset every register reads 0. -/
theorem readReg_of_x_eq_reset {s : State} (h : s.x = State.reset.x) (r : Reg) : s.readReg r = 0#16 := by
  rw [readReg_congr h, readReg_eq_cell (reset_cell 0), reset_cell]

/-- A core that has not halted meets the invariant with the registers of reset and a canonical memory. -/
theorem inv_of_x_eq_reset {s : State} (hx : s.x = State.reset.x) (hwf : s.mem.wf = true) (hh : s.halted = false) :
    s.Inv :=
  ⟨by rw [hx]; exact reset_cell 0, hwf, fun ht => absurd (hh.symm.trans ht) Bool.false_ne_true⟩

/-- Settles O32: the reset state has no listed word and has not halted. -/
theorem invariantAtReset : Obligations.InvariantAtReset :=
  inv_of_x_eq_reset rfl wf_reset reset_halted

/-- Settles O40, field by field. -/
theorem resetIsAllZero : Obligations.ResetIsAllZero :=
  ⟨fun r => ⟨reset_cell r, readReg_of_x_eq_reset rfl r⟩, reset_pc, reset_halted, reset_readMem, rfl⟩

/-- What every memory write keeps, the image load keeps. -/
theorem loadFrom_keeps {P : State → Prop} (hP : ∀ s a v, P s → P (s.writeMem a v)) (image : List Word) (n : Nat)
    {s : State} (hs : P s) : P (State.loadFrom n image s) := by
  induction image generalizing n s with
  | nil => exact hs
  | cons w ws ih => exact ih (n + 1) (hP s (BitVec.ofNat 13 n) w hs)

theorem wf_loadFrom (image : List Word) (n : Nat) {s : State} (hs : s.mem.wf = true) :
    (State.loadFrom n image s).mem.wf = true :=
  loadFrom_keeps (P := fun u => u.mem.wf = true) (fun _ a v h => wf_writeMem h a v) image n hs

/-- The image load "does nothing else" (70_reset_and_hazards.md R202): registers, `pc` and the halt bit stay. -/
theorem loadFrom_frame (image : List Word) (n : Nat) (s : State) :
    (State.loadFrom n image s).x = s.x ∧ (State.loadFrom n image s).pc = s.pc ∧
      (State.loadFrom n image s).halted = s.halted :=
  loadFrom_keeps (P := fun u => u.x = s.x ∧ u.pc = s.pc ∧ u.halted = s.halted) (fun _ _ _ h => h) image n
    ⟨rfl, rfl, rfl⟩

/-- Below `n` and beyond the image the memory reads as before; between them stands the image. -/
theorem readMem_loadFrom (image : List Word) {n : Nat} {s : State} (hs : s.mem.wf = true)
    (hlen : n + image.length ≤ 8192) (a : Addr) :
    (State.loadFrom n image s).readMem a =
      if a.toNat < n then s.readMem a else image.getD (a.toNat - n) (s.readMem a) := by
  induction image generalizing n s with
  | nil => simp [State.loadFrom]
  | cons w ws ih =>
    rw [List.length_cons] at hlen
    have hn : (BitVec.ofNat 13 n).toNat = n := by rw [BitVec.toNat_ofNat]; omega
    rw [State.loadFrom, ih (wf_writeMem hs _ w) (by omega)]
    by_cases hat : a = BitVec.ofNat 13 n
    · subst hat
      rw [hn, if_pos (Nat.lt_succ_self n), if_neg (Nat.lt_irrefl n), readMem_writeMem_same hs, Nat.sub_self,
        List.getD_cons_zero]
    · have hne : a.toNat ≠ n := fun e => hat (BitVec.eq_of_toNat_eq (e.trans hn.symm))
      rw [readMem_writeMem_of_ne s w hat]
      by_cases hlt : a.toNat < n
      · rw [if_pos hlt, if_pos (Nat.lt_succ_of_lt hlt)]
      · rw [if_neg hlt, if_neg (by omega), show a.toNat - n = a.toNat - (n + 1) + 1 by omega, List.getD_cons_succ]

/-- An accepted image fits in memory (R203). -/
theorem length_of_acceptFrom {n : Nat} {lines : List (Nat × Word)} {image : List Word}
    (h : acceptFrom n lines = some image) (hn : n ≤ 8192) : n + image.length ≤ 8192 := by
  induction lines generalizing n image with
  | nil => cases h; exact hn
  | cons line rest ih =>
    obtain ⟨a, w⟩ := line
    rw [acceptFrom] at h
    split at h
    next hline =>
      obtain ⟨ws, hws, rfl⟩ := Option.map_eq_some_iff.mp h
      have := ih hws hline.2
      rw [List.length_cons]
      omega
    next => cases h

theorem boot_of_accepted {lines : List (Nat × Word)} {image : List Word} (h : acceptImage lines = some image) :
    State.boot lines = some (State.loadFrom 0 image State.reset) := by
  have hlen := length_of_acceptFrom h (Nat.zero_le _)
  rw [State.boot, h]
  exact if_pos ((Nat.zero_add _).symm.trans_le hlen)

theorem boot_of_rejected {lines : List (Nat × Word)} (h : acceptImage lines = none) : State.boot lines = none := by
  rw [State.boot, h]

/-- Settles O42: boot is the image load over the reset state, which writes the image and nothing else. -/
theorem bootLoadsTheImage : Obligations.BootLoadsTheImage := by
  refine fun lines => ⟨fun image himage => ?_, boot_of_rejected⟩
  have hlen := length_of_acceptFrom himage (Nat.zero_le _)
  obtain ⟨hx, hpc, hhalted⟩ := loadFrom_frame image 0 State.reset
  refine ⟨_, boot_of_accepted himage, fun a => ?_, fun r => ⟨?_, readReg_of_x_eq_reset hx r⟩, hpc, hhalted,
    inv_of_x_eq_reset hx (wf_loadFrom image 0 wf_reset) hhalted⟩
  · rw [readMem_loadFrom image wf_reset hlen, if_neg (Nat.not_lt_zero _), Nat.sub_zero, reset_readMem]
  · rw [hx]
    exact reset_cell r

end Sys2Proof.Machine
end

