-- ==== Sys2Proof/Proofs/Memory.lean ====
section
/-! The memory (20_memory.md): only SW changes it, and it is unified, so that a stored word can be the next instruction.
-/

namespace Sys2Proof.Machine

/-! ## Only SW changes memory -/

theorem keepsMemory_of_jumpTo {n : Word} {s t : State} (h : jumpTo n s = .next t) : KeepsMemory s t := by
  cases h
  exact readMem_commit n s

theorem keepsMemory_of_retire {s t : State} (h : retire s = .next t) : KeepsMemory s t :=
  keepsMemory_of_jumpTo h

theorem keepsMemory_of_writeBack {d : Reg} {v : Word} {s t : State} (h : writeBack d v s = .next t) :
    KeepsMemory s t := fun c =>
  (keepsMemory_of_retire h c).trans (readMem_writeReg s d v c)

/-- Settles O25, by the way the instruction ends: a write-back, a link and a jump, a jump, or a fall-through, none of
which writes memory. -/
theorem onlySwChangesMemory : Obligations.OnlySwChangesMemory := by
  intro i s t h hsw c
  cases i with
  | sw b a imm => exact absurd rfl (hsw b a imm)
  | add | sub | or | and | slt | addi | slti | lw => exact keepsMemory_of_writeBack h c
  | jal target => rw [keepsMemory_of_jumpTo h, readMem_writeReg]
  | j | jr => exact keepsMemory_of_jumpTo h c
  | jeq a b off =>
    by_cases heq : s.readReg a = s.readReg b
    · exact keepsMemory_of_jumpTo ((if_pos heq).symm.trans h) c
    · exact keepsMemory_of_retire ((if_neg heq).symm.trans h) c
  | reservedSub0101 | reservedSub0110 | reservedSub0111 | reservedSub1001 | reservedSub1010 | reservedSub1011
  | reservedSub1100 | reservedSub1101 | reservedSub1110 | reservedSub1111 => exact keepsMemory_of_retire h c

/-! ## A stored word as the next instruction -/

/-- A core that has not halted runs the instruction it fetches (40_cycle.md R80 to R82). -/
theorem step_of_fetchDecode {s : State} {i : Instr} (hrunning : s.halted = false) (hdecode : s.fetchDecode = .ok i) :
    step s = exec i s := by
  simp [step, hrunning, hdecode]

/-- SW completes with the store, then Commit of the default `next_pc` (44_load_store.md R162). -/
theorem exec_sw (b a : Reg) (imm : Imm7) (s : State) :
    exec (.sw b a imm) s =
      .next (commit (fallThrough s.pc) (s.writeMem (effectiveAddr (s.readReg a) imm) (s.readReg b))) := rfl

/-- The fetch address after a fall-through wraps at the end of memory (20_memory.md R42, 40_cycle.md R83). -/
theorem fetchAddr_fallThrough_toNat (pc : Word) : (fetchAddr (fallThrough pc)).toNat = (pc.toNat + 1) % 8192 := by
  rw [fetchAddr_toNat, fallThrough_toNat]
  omega

/-- Once Commit has set `pc`, a word stored where that `pc` fetches is the word fetched. -/
theorem fetch_commit_writeMem {s : State} (h : s.mem.wf = true) (n v : Word) :
    (commit n (s.writeMem (fetchAddr n) v)).fetch = v :=
  readMem_writeMem_same h (fetchAddr n) v

/-- Settles O34: the store and the next fetch use one memory and here one address, and a fall-through does not halt. -/
theorem storedWordIsFetchedByTheNextStep : Obligations.StoredWordIsFetchedByTheNextStep := by
  intro s b a imm i hwf hrunning hsw hi haddr
  have hea : effectiveAddr (s.readReg a) imm = fetchAddr (fallThrough s.pc) :=
    BitVec.eq_of_toNat_eq (haddr.trans (fetchAddr_fallThrough_toNat s.pc).symm)
  have hfetch := fetch_commit_writeMem hwf (fallThrough s.pc) (s.readReg b)
  refine ⟨_, by rw [step_of_fetchDecode hrunning hsw, exec_sw, hea], hfetch, step_of_fetchDecode ?_ ?_⟩
  · rw [commit_halted, writeMem_pc, haltDetect_fallThrough]
  · rw [State.fetchDecode, hfetch, hi]

end Sys2Proof.Machine
end

