-- ==== Sys2Proof/Proofs/Encoding.lean ====
section
/-! The encoding (30_encoding.md): decoder and encoder are inverse to each other, and what the words of JR and of the
ten reserved sub-codes do. -/

namespace Sys2Proof

/-! ## The fields of an encoded word -/

section encodeRRR
variable (a b d : Reg) (sub : BitVec 4)

@[simp] theorem opcodeOf_encodeRRR : opcodeOf (encodeRRR a b d sub) = 0#3 := by
  apply BitVec.eq_of_toNat_eq; rw [opcodeOf_toNat, encodeRRR_toNat, BitVec.toNat_ofNat]; omega

@[simp] theorem subOf_encodeRRR : subOf (encodeRRR a b d sub) = sub := by
  apply BitVec.eq_of_toNat_eq; rw [subOf_toNat, encodeRRR_toNat]; omega

@[simp] theorem regAOf_encodeRRR : regAOf (encodeRRR a b d sub) = a := by
  apply Fin.ext; rw [regAOf_val, encodeRRR_toNat]; omega

@[simp] theorem regBOf_encodeRRR : regBOf (encodeRRR a b d sub) = b := by
  apply Fin.ext; rw [regBOf_val, encodeRRR_toNat]; omega

@[simp] theorem regDstOf_encodeRRR : regDstOf (encodeRRR a b d sub) = d := by
  apply Fin.ext; rw [regDstOf_val, encodeRRR_toNat]; omega

end encodeRRR

section encodeReserved
variable (ignored : BitVec 9) (sub : BitVec 4)

@[simp] theorem opcodeOf_encodeReserved : opcodeOf (encodeReserved ignored sub) = 0#3 := by
  apply BitVec.eq_of_toNat_eq; rw [opcodeOf_toNat, encodeReserved_toNat, BitVec.toNat_ofNat]; omega

@[simp] theorem subOf_encodeReserved : subOf (encodeReserved ignored sub) = sub := by
  apply BitVec.eq_of_toNat_eq; rw [subOf_toNat, encodeReserved_toNat]; omega

@[simp] theorem subIgnoredOf_encodeReserved : subIgnoredOf (encodeReserved ignored sub) = ignored := by
  apply BitVec.eq_of_toNat_eq; rw [subIgnoredOf_toNat, encodeReserved_toNat]; omega

end encodeReserved

section encode_jr
variable (a : Reg) (ignored : BitVec 6)

@[simp] theorem opcodeOf_encode_jr : opcodeOf (encode (.jr a ignored)) = 0#3 := by
  apply BitVec.eq_of_toNat_eq; rw [opcodeOf_toNat, encode_jr_toNat, BitVec.toNat_ofNat]; omega

@[simp] theorem subOf_encode_jr : subOf (encode (.jr a ignored)) = 0b1000#4 := by
  apply BitVec.eq_of_toNat_eq; rw [subOf_toNat, encode_jr_toNat, BitVec.toNat_ofNat]; omega

@[simp] theorem regAOf_encode_jr : regAOf (encode (.jr a ignored)) = a := by
  apply Fin.ext; rw [regAOf_val, encode_jr_toNat]; omega

@[simp] theorem jrIgnoredOf_encode_jr : jrIgnoredOf (encode (.jr a ignored)) = ignored := by
  apply BitVec.eq_of_toNat_eq; rw [jrIgnoredOf_toNat, encode_jr_toNat]; omega

end encode_jr

section encodeRRI
variable (opcode : BitVec 3) (a r : Reg) (imm : Imm7)

@[simp] theorem opcodeOf_encodeRRI : opcodeOf (encodeRRI opcode a r imm) = opcode := by
  apply BitVec.eq_of_toNat_eq; rw [opcodeOf_toNat, encodeRRI_toNat]; omega

@[simp] theorem regAOf_encodeRRI : regAOf (encodeRRI opcode a r imm) = a := by
  apply Fin.ext; rw [regAOf_val, encodeRRI_toNat]; omega

@[simp] theorem regBOf_encodeRRI : regBOf (encodeRRI opcode a r imm) = r := by
  apply Fin.ext; rw [regBOf_val, encodeRRI_toNat]; omega

@[simp] theorem imm7Of_encodeRRI : imm7Of (encodeRRI opcode a r imm) = imm := by
  apply BitVec.eq_of_toNat_eq; rw [imm7Of_toNat, encodeRRI_toNat]; omega

end encodeRRI

section encodeJ
variable (opcode : BitVec 3) (target : Imm13)

@[simp] theorem opcodeOf_encodeJ : opcodeOf (encodeJ opcode target) = opcode := by
  apply BitVec.eq_of_toNat_eq; rw [opcodeOf_toNat, encodeJ_toNat]; omega

@[simp] theorem imm13Of_encodeJ : imm13Of (encodeJ opcode target) = target := by
  apply BitVec.eq_of_toNat_eq; rw [imm13Of_toNat, encodeJ_toNat]; omega

end encodeJ

/-! ## Decode of encode -/

/-- Opcode 000 is the ADD class (R67). -/
theorem decode_of_addClass {w : Word} (hop : (opcodeOf w).toNat = 0) : decode w = .ok (decodeAddClass w) := by
  simp [decode, hop]

/-- Settles O2, by the format of the instruction: the opcode and the sub-code select its arm of the decoder, and each
field read back is the operand. -/
theorem decodeInvertsEncode : Obligations.DecodeInvertsEncode := by
  intro i
  cases i with
  | add | sub | or | and | slt | reservedSub0101 | reservedSub0110 | reservedSub0111 | reservedSub1001 | reservedSub1010
  | reservedSub1011 | reservedSub1100 | reservedSub1101 | reservedSub1110 | reservedSub1111 =>
    simp [encode, decode_of_addClass, decodeAddClass]
  | jr a ignored =>
    have hop : (opcodeOf (encode (.jr a ignored))).toNat = 0 := by simp
    simp [decode_of_addClass hop, decodeAddClass]
  | addi | lw | sw | slti | jeq | j | jal => simp [encode, decode]

/-! ## Encode of decode -/

section fields
variable {w : Word}

theorem encodeRRR_fields {sub : BitVec 4} (hop : (opcodeOf w).toNat = 0) (hsub : (subOf w).toNat = sub.toNat) :
    encodeRRR (regAOf w) (regBOf w) (regDstOf w) sub = w := by
  apply BitVec.eq_of_toNat_eq
  rw [opcodeOf_toNat] at hop
  rw [encodeRRR_toNat, regAOf_val, regBOf_val, regDstOf_val, ← hsub, subOf_toNat]
  omega

theorem encodeReserved_fields {sub : BitVec 4} (hop : (opcodeOf w).toNat = 0) (hsub : (subOf w).toNat = sub.toNat) :
    encodeReserved (subIgnoredOf w) sub = w := by
  apply BitVec.eq_of_toNat_eq
  rw [opcodeOf_toNat] at hop
  rw [encodeReserved_toNat, subIgnoredOf_toNat, ← hsub, subOf_toNat]
  omega

theorem encode_jr_fields (hop : (opcodeOf w).toNat = 0) (hsub : (subOf w).toNat = 8) :
    encode (.jr (regAOf w) (jrIgnoredOf w)) = w := by
  apply BitVec.eq_of_toNat_eq
  rw [opcodeOf_toNat] at hop
  rw [subOf_toNat] at hsub
  rw [encode_jr_toNat, regAOf_val, jrIgnoredOf_toNat]
  omega

theorem encodeRRI_fields {opcode : BitVec 3} (hop : (opcodeOf w).toNat = opcode.toNat) :
    encodeRRI opcode (regAOf w) (regBOf w) (imm7Of w) = w := by
  apply BitVec.eq_of_toNat_eq
  rw [encodeRRI_toNat, regAOf_val, regBOf_val, imm7Of_toNat, ← hop, opcodeOf_toNat]
  omega

theorem encodeJ_fields {opcode : BitVec 3} (hop : (opcodeOf w).toNat = opcode.toNat) :
    encodeJ opcode (imm13Of w) = w := by
  apply BitVec.eq_of_toNat_eq
  rw [encodeJ_toNat, imm13Of_toNat, ← hop, opcodeOf_toNat]
  omega

end fields

theorem encode_decodeAddClass {w : Word} (hop : (opcodeOf w).toNat = 0) : encode (decodeAddClass w) = w := by
  unfold decodeAddClass
  split
  case h_1 hsub | h_2 hsub | h_3 hsub | h_4 hsub | h_5 hsub => exact encodeRRR_fields hop hsub
  case h_9 hsub => exact encode_jr_fields hop hsub
  case h_6 hsub | h_7 hsub | h_8 hsub | h_10 hsub | h_11 hsub | h_12 hsub | h_13 hsub | h_14 hsub | h_15 hsub =>
    exact encodeReserved_fields hop hsub
  case h_16 =>
    have hsub : (subOf w).toNat = (0b1111#4).toNat := by
      have := (subOf w).isLt
      simp only [imp_false] at *
      rw [BitVec.toNat_ofNat]
      omega
    exact encodeReserved_fields hop hsub

/-- Settles O3, by the opcode: the fields the decoder reads are all the bits of the word. -/
theorem encodeInvertsDecode : Obligations.EncodeInvertsDecode := by
  intro w i h
  unfold decode at h
  split at h
  case h_9 => cases h
  all_goals rename_i hop; cases h
  case h_1 => exact encode_decodeAddClass hop
  case h_3 | h_4 => exact encodeJ_fields hop
  case h_2 | h_5 | h_6 | h_7 | h_8 => exact encodeRRI_fields hop

/-- The words that decode to an instruction: its own one. -/
theorem decode_eq_ok_iff {w : Word} {i : Instr} : decode w = .ok i ↔ w = encode i :=
  ⟨fun h => (encodeInvertsDecode w i h).symm, fun h => h ▸ decodeInvertsEncode i⟩

/-! ## Ignored bits -/

/-- The mask 0xE00F keeps the opcode and the sub-code. -/
theorem and_subMask_eq_iff {w : Word} {sub : BitVec 4} :
    w &&& 0xE00F#16 = sub.setWidth 16 ↔ (opcodeOf w).toNat = 0 ∧ (subOf w).toNat = sub.toNat := by
  rw [BitVec.toNat_eq, and_subMask_toNat, opcodeOf_toNat, subOf_toNat, BitVec.toNat_setWidth]
  omega

/-- The mask 0x1C00 keeps `regA`. -/
theorem regAOf_and_mask (w : Word) : regAOf (w &&& 0x1C00#16) = regAOf w := by
  rw [regAOf, BitVec.extractLsb'_and]
  exact congrArg BitVec.toFin (BitVec.and_allOnes (x := w.extractLsb' 10 3))

theorem decode_jr {w : Word} (h : w &&& 0xE00F#16 = 0x0008#16) : decode w = .ok (.jr (regAOf w) (jrIgnoredOf w)) := by
  obtain ⟨hop, hsub⟩ := and_subMask_eq_iff (sub := 0b1000#4).mp h
  simp [decode_of_addClass hop, decodeAddClass, hsub]

/-- The words of a reserved sub-code (R69), its ignored field being bits 12..4. -/
theorem decode_reserved_iff {w m : Word} {i : Instr} {ignored : BitVec 9} {sub : BitVec 4}
    (hi : encode i = encodeReserved ignored sub) (hm : m = sub.setWidth 16) :
    decode w = .ok i ↔ w &&& 0xE00F#16 = m ∧ ignored.toNat = w.toNat / 16 % 512 := by
  rw [decode_eq_ok_iff, hi, hm, ← subIgnoredOf_toNat, ← BitVec.toNat_eq]
  constructor
  · rintro rfl
    exact ⟨and_subMask_eq_iff.mpr (by simp), (subIgnoredOf_encodeReserved ..).symm⟩
  · rintro ⟨hmask, rfl⟩
    obtain ⟨hop, hsub⟩ := and_subMask_eq_iff.mp hmask
    exact (encodeReserved_fields hop hsub).symm

end Sys2Proof

namespace Sys2Proof.Machine

/-- Opcode and sub-code of the ten reserved sub-codes, as the mask 0xE00F leaves them (R69). -/
def reservedMatches : List Word :=
  [0x0005#16, 0x0006#16, 0x0007#16, 0x0009#16, 0x000A#16, 0x000B#16, 0x000C#16, 0x000D#16, 0x000E#16, 0x000F#16]

theorem reservedMatches_bounds : ∀ m ∈ reservedMatches, 5 ≤ m.toNat ∧ m.toNat < 16 ∧ m.toNat ≠ 8 := by
  simp [reservedMatches]

/-- From 0101 on, every sub-code but JR's does nothing (41_alu_register.md R106). -/
theorem exec_decodeAddClass_eq_retire {w : Word} (h5 : 5 ≤ (subOf w).toNat) (h8 : (subOf w).toNat ≠ 8) (s : State) :
    exec (decodeAddClass w) s = retire s := by
  unfold decodeAddClass
  split
  case h_1 hsub | h_2 hsub | h_3 hsub | h_4 hsub | h_5 hsub => omega
  case h_9 hsub => exact absurd hsub h8
  case h_6 | h_7 | h_8 | h_10 | h_11 | h_12 | h_13 | h_14 | h_15 | h_16 => rfl

theorem exec_eq_retire_of_reserved {w : Word} {i : Instr} (hi : decode w = .ok i)
    (hm : w &&& 0xE00F#16 ∈ reservedMatches) (s : State) : exec i s = retire s := by
  obtain ⟨h5, h16, h8⟩ := reservedMatches_bounds _ hm
  rw [and_subMask_toNat] at h5 h16 h8
  have hop : (opcodeOf w).toNat = 0 := by rw [opcodeOf_toNat]; omega
  cases (decode_of_addClass hop).symm.trans hi
  apply exec_decodeAddClass_eq_retire <;> rw [subOf_toNat] <;> omega

/-- Settles O5: JR uses no field but `regA`, and a reserved sub-code none. -/
theorem ignoredBitsHaveNoEffect : Obligations.IgnoredBitsHaveNoEffect := by
  intro w w' i i' hi hi' hmask
  constructor
  · intro hjr hregA s
    have hjr' : w' &&& 0xE00F#16 = 0x0008#16 := hmask.symm.trans hjr
    have ha : regAOf w = regAOf w' := by rw [← regAOf_and_mask w, hregA, regAOf_and_mask]
    cases (decode_jr hjr).symm.trans hi
    cases (decode_jr hjr').symm.trans hi'
    exact congrArg (execJr · s) ha
  · intro hres s
    have hres' : w' &&& 0xE00F#16 ∈ reservedMatches := hmask ▸ hres
    rw [exec_eq_retire_of_reserved hi hres, exec_eq_retire_of_reserved hi' hres']

/-! ## The ten reserved sub-codes -/

theorem keepsRegs_commit (n : Word) (s : State) : KeepsRegs s (commit n s) :=
  ⟨readReg_commit n s, commit_cell_zero n s⟩

theorem fallsThrough_commit (s : State) {u : State} (h : u.pc = s.pc) :
    FallsThrough s (commit (fallThrough s.pc) u) :=
  ⟨fallThrough_toNat s.pc, by rw [commit_halted, h, haltDetect_fallThrough]⟩

/-- An instruction that only retires is a no-operation. -/
theorem retire_does_nothing (s : State) :
    ∃ t, retire s = .next t ∧ KeepsRegs s t ∧ KeepsMemory s t ∧ FallsThrough s t :=
  ⟨_, retire_eq s, keepsRegs_commit _ s, readMem_commit _ s, fallsThrough_commit s rfl⟩

/-- Settles O11: each sub-code has the words of its row, and its meaning is to retire. -/
theorem reservedSubCodesDoNothing : Obligations.ReservedSubCodesDoNothing := by
  refine ⟨fun w ignored => ?_, fun ignored s => ?_⟩
  · refine ⟨?_, ?_, ?_, ?_, ?_, ?_, ?_, ?_, ?_, ?_⟩ <;> exact decode_reserved_iff rfl rfl
  · refine ⟨?_, ?_, ?_, ?_, ?_, ?_, ?_, ?_, ?_, ?_⟩ <;> exact retire_does_nothing s

end Sys2Proof.Machine
end

