-- ==== Sys2Proof/Proofs/PseudoInstructions.lean ====
section
/-! The assembler's pseudo-instructions and labels (30_encoding.md R73, R74), assembled and then run on the core. -/

namespace Sys2Proof.Machine

/-- A line that is an instruction assembles to that instruction's word exactly where it is well formed. -/
theorem assemble_eq_some_iff {site : Nat} {l : Source} {i : Instr} (hi : l.instr site = some i) {w : Word} :
    assemble site l = some w ↔ l.wellFormed site = true ∧ encode i = w := by
  simp [assemble, hi]

/-- A core that has not halted runs the instruction whose word it fetches. -/
theorem step_of_fetch_encode {s : State} {i : Instr} (hrunning : s.halted = false) (hfetch : s.fetch = encode i) :
    step s = exec i s :=
  step_of_fetchDecode hrunning (by rw [State.fetchDecode, hfetch, decodeInvertsEncode])

/-- A line assembled and fetched is well formed, and its instruction is the one run. -/
theorem step_of_assemble {s : State} {site : Nat} {l : Source} {i : Instr} {w : Word} (hi : l.instr site = some i)
    (hrunning : s.halted = false) (hasm : assemble site l = some w) (hfetch : s.fetch = w) :
    l.wellFormed site = true ∧ step s = exec i s := by
  obtain ⟨hwf, hw⟩ := (assemble_eq_some_iff hi).mp hasm
  exact ⟨hwf, step_of_fetch_encode hrunning (hfetch.trans hw.symm)⟩

/-! ## NOP and HALT -/

/-- Settles O44: NOP is `ADD $0, $0, $0`, whose write is discarded. -/
theorem zeroWordIsANop : Obligations.ZeroWordIsANop := by
  refine ⟨fun site => rfl, fun s hrunning hfetch => ?_⟩
  have hstep : step s = exec (.add 0 0 0) s := step_of_fetch_encode hrunning hfetch
  rw [hstep]
  exact retire_does_nothing s

/-- Below 8192 a PC is a jump target. -/
theorem zext13_ofNat_pc {pc : Word} (h : pc.toNat < 8192) : zext13 (BitVec.ofNat 13 pc.toNat) = pc := by
  apply BitVec.eq_of_toNat_eq
  rw [zext13_toNat, BitVec.toNat_ofNat, Nat.mod_eq_of_lt h]

/-- Settles O45: HALT is a jump to its own address. -/
theorem haltPseudoInstructionHalts : Obligations.HaltPseudoInstructionHalts := by
  intro s w hrunning hpc hasm hfetch
  obtain ⟨-, hstep⟩ := step_of_assemble rfl hrunning hasm hfetch
  have hhalt : (commit s.pc s).halted = true := (haltDetect_false s.pc s.pc).mpr (Nat.mod_eq_of_lt hpc)
  have hexec : exec (.j (BitVec.ofNat 13 s.pc.toNat)) s = .next (commit s.pc s) := by
    rw [exec, execJ, zext13_ofNat_pc hpc, jumpTo_eq]
  exact ⟨_, hstep.trans hexec, hhalt, commit_pc _ s, keepsRegs_commit _ s, readMem_commit _ s⟩

/-! ## Immediates and labels -/

/-- `sext_7` is the immediate as a number, modulo 65536. -/
theorem sext7_toNat_eq_immValue (imm : Imm7) : ((sext7 imm).toNat : Int) = immValue imm % 65536 := by
  rw [sext7_toNat, immValue]
  split <;> omega

/-- The low 7 bits of an immediate stand for the number itself, or for a raw pattern less 128 (R73). -/
theorem immValue_imm7OfInt {v : Int} (h : imm7Ok v = true) :
    immValue (imm7OfInt v) = if v ≤ 63 then v else v - 128 := by
  have hrange : -64 ≤ v ∧ v ≤ 127 := of_decide_eq_true h
  have hbits : ((imm7OfInt v).toNat : Int) = v % 128 := by
    rw [imm7OfInt, BitVec.toNat_ofInt]
    omega
  rw [immValue]
  split <;> split <;> omega

theorem writesOnly_commit_writeReg (n : Word) (d : Reg) (v : Word) (s : State) :
    WritesOnly d s (commit n (s.writeReg d v)) :=
  ⟨fun r hr => by rw [readReg_commit, readReg_writeReg_of_ne s v hr], commit_cell_zero n _⟩

/-- Settles O46: MOVI is ADDI from `$0`, which reads 0. -/
theorem moviLoadsTheImmediate : Obligations.MoviLoadsTheImmediate := by
  intro s site d imm w hrunning hasm hfetch
  obtain ⟨hwf, hstep⟩ := step_of_assemble rfl hrunning hasm hfetch
  obtain ⟨hd, himm⟩ : regOk d = true ∧ imm7Ok imm = true := Bool.and_eq_true_iff.mp hwf
  have hexec := writeBack_eq (regOfNat d) (s.readReg 0 + sext7 (imm7OfInt imm)) s
  refine ⟨_, hstep.trans hexec, fun hne => ?_, writesOnly_commit_writeReg .., keepsMemory_of_writeBack hexec,
    fallsThrough_commit s (writeReg_pc ..)⟩
  have hreg : regOfNat d ≠ 0 := by
    have hlt : d < 8 := of_decide_eq_true hd
    rw [regOfNat, Ne, Fin.ext_iff, Fin.val_ofNat]
    omega
  rw [readReg_commit, readReg_writeReg_same s _ hreg, readReg_zero, BitVec.zero_add, sext7_toNat_eq_immValue,
    immValue_imm7OfInt himm]

/-- A branch whose offset is that of a label goes to the label (R73). -/
theorem branchTarget_labelOffset {pc : Word} {target : Nat} (htarget : target < 8192)
    (hoff : labelOffsetOk pc.toNat target = true) :
    (branchTarget pc (imm7OfInt (labelOffset pc.toNat target))).toNat = target := by
  have hrange : -64 ≤ labelOffset pc.toNat target ∧ labelOffset pc.toNat target ≤ 63 := of_decide_eq_true hoff
  have himm : imm7Ok (labelOffset pc.toNat target) = true := decide_eq_true (by omega)
  have hsext := sext7_toNat_eq_immValue (imm7OfInt (labelOffset pc.toNat target))
  rw [immValue_imm7OfInt himm, if_pos hrange.2, labelOffset] at hsext
  rw [branchTarget_toNat, labelOffset]
  omega

/-- Settles O47: the offset of the label is the distance from the word after the JEQ. -/
theorem labelBranchReachesTheLabel : Obligations.LabelBranchReachesTheLabel := by
  intro s a b target w hrunning hasm hfetch heq
  obtain ⟨hwf, hstep⟩ := step_of_assemble rfl hrunning hasm hfetch
  simp only [Source.wellFormed, Bool.and_eq_true] at hwf
  obtain ⟨⟨-, htarget⟩, hoff⟩ := hwf
  have hexec : ∀ off, exec (.jeq (regOfNat a) (regOfNat b) off) s = .next (commit (branchTarget s.pc off) s) :=
    fun _ => if_pos heq
  exact ⟨_, hstep.trans (hexec _), branchTarget_labelOffset (of_decide_eq_true htarget) hoff⟩

end Sys2Proof.Machine
end

