-- ==== Sys2Proof/Proofs/Cycle.lean ====
section
/-! The instruction cycle (40_cycle.md): every enabled step completes, the next `pc`, when the core halts, and how runs
go on and end. -/

namespace Sys2Proof

/-- Settles O4: a 3-bit opcode has no value beyond the eight arms. -/
theorem everyWordDecodes : Obligations.EveryWordDecodes := by
  intro w
  have hop := (opcodeOf w).isLt
  unfold decode
  split
  case h_9 =>
    simp only [imp_false] at *
    omega
  all_goals exact ⟨_, rfl⟩

end Sys2Proof

namespace Sys2Proof.Machine

/-! ## The step -/

/-- A halted core takes no step (40_cycle.md R89). -/
theorem step_of_halted {s : State} (h : s.halted = true) : step s = .fault .halted := if_pos h

/-- No instruction can fault or block (40_cycle.md R80). -/
theorem exec_completes (i : Instr) (s : State) : ∃ t, exec i s = .next t := by
  obtain ⟨_, _, e⟩ | ⟨_, _, e⟩ | ⟨_, _, _, e⟩ | ⟨_, _, e⟩ | ⟨_, e⟩ | e := exec_cases i s <;> exact ⟨_, e⟩

/-- Settles O22: the fetched word decodes, and its instruction completes. -/
theorem enabledStepsComplete : Obligations.EnabledStepsComplete := by
  refine fun s => ⟨fun hrunning => ?_, step_of_halted⟩
  obtain ⟨i, hdecode⟩ := everyWordDecodes s.fetch
  rw [step_of_fetchDecode hrunning hdecode]
  exact exec_completes i s

/-- Settles O21: the address is the fetch address. -/
theorem stepRunsTheFetchedInstruction : Obligations.StepRunsTheFetchedInstruction := by
  intro s a i hrunning ha hdecode
  obtain rfl : a = fetchAddr s.pc := BitVec.eq_of_toNat_eq (ha.trans (fetchAddr_toNat s.pc).symm)
  exact step_of_fetchDecode hrunning hdecode

/-! ## The next `pc` -/

theorem pc_of_jumpTo {n : Word} {s t : State} (h : jumpTo n s = .next t) : t.pc = n := by
  cases h
  exact commit_pc n s

theorem pc_of_retire {s t : State} (h : retire s = .next t) : t.pc.toNat = (s.pc.toNat + 1) % 65536 := by
  rw [pc_of_jumpTo h, fallThrough_toNat]

theorem pc_of_writeBack {d : Reg} {v : Word} {s t : State} (h : writeBack d v s = .next t) :
    t.pc.toNat = (s.pc.toNat + 1) % 65536 := by
  rw [pc_of_retire h, writeReg_pc]

/-- The target of a taken JEQ, with the offset as a number (43_control.md R143). -/
theorem branchTarget_toNat_eq_immValue (pc : Word) (off : Imm7) :
    (branchTarget pc off).toNat = (((pc.toNat : Int) + 1 + immValue off) % 65536).toNat := by
  have hoff := sext7_toNat_eq_immValue off
  rw [branchTarget_toNat]
  omega

/-- Settles O23, by the way the instruction ends: a fall-through, or the target of its jump. -/
theorem nextPcOfEveryInstruction : Obligations.NextPcOfEveryInstruction := by
  intro i s t h
  cases i with
  | add | sub | or | and | slt | addi | slti | lw => exact pc_of_writeBack h
  | sw b a imm => exact pc_of_retire (s := s.writeMem (effectiveAddr (s.readReg a) imm) (s.readReg b)) h
  | reservedSub0101 | reservedSub0110 | reservedSub0111 | reservedSub1001 | reservedSub1010 | reservedSub1011
  | reservedSub1100 | reservedSub1101 | reservedSub1110 | reservedSub1111 => exact pc_of_retire h
  | j target | jal target => rw [pc_of_jumpTo h, zext13_toNat, nextPcOf]
  | jr a => rw [pc_of_jumpTo h, jrTarget_toNat, nextPcOf]
  | jeq a b off =>
    rw [nextPcOf]
    by_cases heq : s.readReg a = s.readReg b
    · rw [if_pos heq, pc_of_jumpTo ((if_pos heq).symm.trans h), branchTarget_toNat_eq_immValue]
    · rw [if_neg heq, pc_of_retire ((if_neg heq).symm.trans h)]

/-! ## The halt detector -/

/-- Every instruction ends in the comparison of the halt detector (40_cycle.md R86). -/
theorem exec_haltBit {i : Instr} {s t : State} (h : exec i s = .next t) : HaltBit s t := by
  obtain ⟨n, u, rfl, hu, -⟩ := exec_next_cases h
  rw [HaltBit, commit_halted, commit_pc, hu.pc_eq, haltDetect_false]

/-- A fall-through never meets the halt comparison (40_cycle.md R88). -/
theorem fallThrough_mod_ne_pc (pc : Nat) : (pc + 1) % 65536 % 8192 ≠ pc := by omega

/-- A branch meets the halt comparison with offset -1 alone: the offset reaches no multiple of 8192 beyond it
(40_cycle.md R88). -/
theorem branch_mod_eq_pc_iff {pc : Nat} (hpc : pc < 65536) (off : Imm7) :
    (((pc : Int) + 1 + immValue off) % 65536).toNat % 8192 = pc ↔ pc < 8192 ∧ immValue off = -1 := by
  have hrange : -64 ≤ immValue off ∧ immValue off < 64 := by
    have := off.isLt
    rw [immValue]
    split <;> omega
  omega

/-- The halt comparison on the `next_pc` of each instruction (40_cycle.md R88). -/
theorem nextPcOf_mod_eq_pc_iff (i : Instr) (s : State) :
    nextPcOf i s % 8192 = s.pc.toNat ↔ s.pc.toNat < 8192 ∧ SelfTarget i s := by
  have hpc : s.pc.toNat < 65536 := s.pc.isLt
  have hfall : (s.pc.toNat + 1) % 65536 % 8192 = s.pc.toNat ↔ s.pc.toNat < 8192 ∧ False := by
    simpa using fallThrough_mod_ne_pc s.pc.toNat
  cases i with
  | add | sub | or | and | slt | addi | slti | lw | sw => exact hfall
  | reservedSub0101 | reservedSub0110 | reservedSub0111 | reservedSub1001 | reservedSub1010 | reservedSub1011
  | reservedSub1100 | reservedSub1101 | reservedSub1110 | reservedSub1111 => exact hfall
  | j target | jal target =>
    have htarget : target.toNat < 8192 := target.isLt
    rw [nextPcOf, SelfTarget]
    omega
  | jr a =>
    rw [nextPcOf, SelfTarget]
    omega
  | jeq a b off =>
    rw [nextPcOf, SelfTarget]
    by_cases heq : s.readReg a = s.readReg b
    · simpa [heq] using branch_mod_eq_pc_iff hpc off
    · simpa [heq] using fallThrough_mod_ne_pc s.pc.toNat

/-- Settles O27: the detector compares the instruction's `next_pc`. -/
theorem haltsExactlyOnSelfTarget : Obligations.HaltsExactlyOnSelfTarget := by
  intro i s t h
  have hbit : t.halted = true ↔ t.pc.toNat % 8192 = s.pc.toNat := exec_haltBit h
  rw [hbit, nextPcOfEveryInstruction i s t h]
  exact nextPcOf_mod_eq_pc_iff i s

/-- Settles O28: the detector fires below 8192 only. -/
theorem noStepHaltsAbove8191 : Obligations.NoStepHaltsAbove8191 := by
  intro s t hpc h
  obtain ⟨-, i, -, hexec⟩ := step_next_cases h
  rw [Bool.eq_false_iff, Ne, haltsExactlyOnSelfTarget i s t hexec]
  omega

/-- Settles O31: a halting instruction targets itself below 8192, and a halted core is stuck. -/
theorem haltingStepLeavesItsOwnPc : Obligations.HaltingStepLeavesItsOwnPc := by
  intro s t h ht
  obtain ⟨-, i, -, hexec⟩ := step_next_cases h
  obtain ⟨hpc, hlt⟩ := exec_halted_pc hexec ht
  exact ⟨hpc, hlt, step_of_halted ht⟩

/-! ## Runs that never end -/

/-- What every step keeps, and no halted core has, runs for ever. -/
theorem runsForever_of_step_keeps {P : State → Prop} (hrunning : ∀ s, P s → s.halted = false)
    (hstep : ∀ s, P s → ∃ t, step s = .next t ∧ P t) {s : State} (hs : P s) : RunsForever s := by
  intro n
  induction n generalizing s with
  | zero => exact ⟨s, run_zero s, hrunning s hs⟩
  | succ n ih =>
    obtain ⟨t, hst, ht⟩ := hstep s hs
    rw [run_succ_of_next hst]
    exact ih ht

/-- A core about to run a JEQ of `$a` with itself and offset -1, at 8192 or above (40_cycle.md R87). -/
def AtSelfBranch (a : Reg) (off : Imm7) (s : State) : Prop :=
  s.halted = false ∧ 8192 ≤ s.pc.toNat ∧ s.fetchDecode = .ok (.jeq a a off)

/-- A branch with offset -1 goes to its own address. -/
theorem branchTarget_self {off : Imm7} (hoff : immValue off = -1) (pc : Word) : branchTarget pc off = pc := by
  apply BitVec.eq_of_toNat_eq
  have hpc := pc.isLt
  rw [branchTarget_toNat_eq_immValue, hoff]
  omega

/-- Such a JEQ changes nothing it depends on. -/
theorem step_keeps_atSelfBranch {a : Reg} {off : Imm7} (hoff : immValue off = -1) (s : State)
    (hs : AtSelfBranch a off s) : ∃ t, step s = .next t ∧ AtSelfBranch a off t := by
  obtain ⟨hrunning, hpc, hdecode⟩ := hs
  have hexec : exec (.jeq a a off) s = .next (commit s.pc s) := by
    rw [exec, execJeq, if_pos rfl, branchTarget_self hoff, jumpTo_eq]
  exact ⟨_, (step_of_fetchDecode hrunning hdecode).trans hexec, haltDetect_false_of_le hpc s.pc, hpc, hdecode⟩

/-- Settles O29: the branch leads back to itself, and at 8192 or above the detector does not fire. -/
theorem selfBranchAbove8191RunsForever : Obligations.SelfBranchAbove8191RunsForever := by
  intro s a off hrunning hpc hoff hdecode
  exact runsForever_of_step_keeps (P := AtSelfBranch a off) (fun _ ⟨hrunning, _⟩ => hrunning)
    (step_keeps_atSelfBranch hoff) ⟨hrunning, hpc, hdecode⟩

/-! ## Runs that have ended -/

/-- A run of `n + 1` steps that answers a next state took its first step to some `u` and `n` steps from there. -/
theorem run_succ_next_cases {n : Nat} {s t : State} (h : Sys2Proof.core.run (n + 1) s = .next t) :
    ∃ u, step s = .next u ∧ Sys2Proof.core.run n u = .next t := by
  by_cases hhalted : s.halted = true
  · cases (run_succ_of_fault (step_of_halted hhalted) n).symm.trans h
  · obtain ⟨u, hu⟩ := (enabledStepsComplete s).1 (Bool.eq_false_of_not_eq_true hhalted)
    exact ⟨u, hu, (run_succ_of_next hu n).symm.trans h⟩

/-- A run goes on from where its first `n` steps have led. -/
theorem run_add_of_next {n : Nat} {s t : State} (h : Sys2Proof.core.run n s = .next t) (m : Nat) :
    Sys2Proof.core.run (n + m) s = Sys2Proof.core.run m t := by
  induction n generalizing s with
  | zero =>
    cases h
    rw [Nat.zero_add]
  | succ n ih =>
    obtain ⟨u, hu, hrun⟩ := run_succ_next_cases h
    rw [Nat.add_right_comm, run_succ_of_next hu, ih hrun]

/-- Settles O39: the run goes on from a halted core, which takes no step. -/
theorem anEndedRunTakesNoStep : Obligations.AnEndedRunTakesNoStep := by
  rintro n k s t ⟨hrun, ht⟩
  rw [Nat.add_assoc, run_add_of_next hrun]
  exact run_succ_of_fault (step_of_halted ht) k

end Sys2Proof.Machine
end

