-- ==== Sys2Proof/Proofs/SpecStep.lean ====
section
/-! The step is the complete step of 40_cycle.md R91 on numbers. The proof has two halves that meet in
`Numbers.exec`, the effect of one instruction on numbers: the dispatch of R91 on the fields of the fetched word selects
that effect, and the machine's meaning of the instruction has it. -/

namespace Sys2Proof.Machine

/-! ## One instruction on numbers -/

/-- The end of an instruction of R91 that keeps the default `next_pc` (R83). -/
def Numbers.retire (currentPc : Nat) (S : Numbers) : Numbers := S.commit currentPc ((currentPc + 1) % 65536)

/-- Memory with the word `a` replaced by `v`. -/
def Numbers.store (S : Numbers) (a v : Nat) : Numbers := { S with mem := fun c => if c = a then v else S.mem c }

/-- The line of R91 for one instruction, then its last three lines. -/
def Numbers.exec (S : Numbers) : Instr → Numbers
  | .add d a b => (S.put d ((S.x a + S.x b) % 65536)).retire S.pc
  | .sub d a b => (S.put d ((S.x a + 65536 - S.x b) % 65536)).retire S.pc
  | .or d a b => (S.put d (S.x a ||| S.x b)).retire S.pc
  | .and d a b => (S.put d (S.x a &&& S.x b)).retire S.pc
  | .slt d a b => (S.put d (if S.x a < S.x b then 1 else 0)).retire S.pc
  | .jr a _ => S.commit S.pc (S.x a % 8192)
  | .addi d a imm => (S.put d ((S.x a + (sext7 imm).toNat) % 65536)).retire S.pc
  | .j target => S.commit S.pc target.toNat
  | .jal target => (S.put 7 ((S.pc + 1) % 65536)).commit S.pc target.toNat
  | .lw d a imm => (S.put d (S.mem ((S.x a + (sext7 imm).toNat) % 8192))).retire S.pc
  | .sw b a imm => (S.store ((S.x a + (sext7 imm).toNat) % 8192) (S.x b)).retire S.pc
  | .jeq a b off =>
    S.commit S.pc (if S.x a = S.x b then (S.pc + 1 + (sext7 off).toNat) % 65536 else (S.pc + 1) % 65536)
  | .slti d a imm => (S.put d (if S.x a < (sext7 imm).toNat then 1 else 0)).retire S.pc
  | .reservedSub0101 _ => S.retire S.pc
  | .reservedSub0110 _ => S.retire S.pc
  | .reservedSub0111 _ => S.retire S.pc
  | .reservedSub1001 _ => S.retire S.pc
  | .reservedSub1010 _ => S.retire S.pc
  | .reservedSub1011 _ => S.retire S.pc
  | .reservedSub1100 _ => S.retire S.pc
  | .reservedSub1101 _ => S.retire S.pc
  | .reservedSub1110 _ => S.retire S.pc
  | .reservedSub1111 _ => S.retire S.pc

/-! ## The dispatch of R91 -/

/-- The immediate of R91, read off the word. -/
theorem sext7_imm7Of_toNat (w : Word) :
    (sext7 (imm7Of w)).toNat = if w.toNat % 128 < 64 then w.toNat % 128 else w.toNat % 128 + 65408 := by
  rw [sext7_toNat, imm7Of_toNat]

section dispatch
variable {S : Numbers} {w : Word} (hfetch : S.mem (S.pc % 8192) = w.toNat)
include hfetch

/-- Inside opcode 000 the sub-code selects the line (R68). -/
theorem numbersStep_addClass (hop : (opcodeOf w).toNat = 0) : S.step = S.exec (decodeAddClass w) := by
  rw [opcodeOf_toNat] at hop
  unfold decodeAddClass
  split
  case h_16 =>
    have hsub : w.toNat % 16 = 15 := by
      simp only [subOf_toNat, imp_false] at *
      omega
    simp only [Numbers.step, hfetch, hop, hsub, Numbers.exec, Numbers.retire]
  all_goals
    rename_i hsub
    rw [subOf_toNat] at hsub
    simp only [Numbers.step, hfetch, hop, hsub, Numbers.exec, Numbers.retire, regAOf_val, regBOf_val, regDstOf_val]

/-- The opcode selects the line (R67). -/
theorem numbersStep_of_decode {i : Instr} (hi : decode w = .ok i) : S.step = S.exec i := by
  unfold decode at hi
  split at hi
  case h_9 => cases hi
  all_goals rename_i hop; cases hi
  case h_1 => exact numbersStep_addClass hfetch hop
  all_goals
    rw [opcodeOf_toNat] at hop
    simp only [Numbers.step, hfetch, hop, Numbers.exec, Numbers.retire, Numbers.store, regAOf_val, regBOf_val,
      imm13Of_toNat, sext7_imm7Of_toNat]

end dispatch

/-! ## The state's operations on numbers -/

theorem numbers_x {s : State} (hzero : s.x[Config.zeroReg] = 0#16) (r : Reg) :
    s.numbers.x r = (s.readReg r).toNat := by
  rw [readReg_eq_cell hzero]
  exact dif_pos r.isLt

theorem numbers_fetch (s : State) : s.numbers.mem (s.numbers.pc % 8192) = s.fetch.toNat := by
  rw [State.fetch, State.readMem, fetchAddr_toNat]
  rfl

/-- Setting one cell replaces one register. -/
theorem numbers_x_of_set {s t : State} {d : Reg} {v : Word} (h : t.x = s.x.set d.val v) :
    t.numbers.x = fun i : Nat => if i = d.val then v.toNat else s.numbers.x i := by
  funext i
  by_cases hi : i < 8
  · simp only [State.numbers, dif_pos hi, h, Vector.getElem_set, eq_comm (a := d.val), apply_ite BitVec.toNat]
  · have hne : i ≠ d.val := fun e => hi (e ▸ d.isLt)
    simp only [State.numbers, dif_neg hi, if_neg hne]

/-- The write port (40_cycle.md R85). -/
theorem numbers_writeReg (s : State) (d : Reg) (v : Word) : (s.writeReg d v).numbers = s.numbers.put d v.toNat := by
  by_cases hd : d = 0
  · subst hd
    rfl
  · have hval : d.val ≠ 0 := fun e => hd (Fin.ext e)
    have hx : (s.writeReg d v).x = s.x.set d v := (writeReg_x s d v).trans (if_neg hd)
    have hnumbers : (s.writeReg d v).numbers = { s.numbers with x := (s.writeReg d v).numbers.x } := by
      simp only [State.numbers, writeReg_pc, writeReg_mem, writeReg_halted]
    rw [hnumbers, numbers_x_of_set hx, Numbers.put, if_neg hval, Nat.mod_eq_of_lt v.isLt]

/-- The store of a word (20_memory.md R45); the canonical form makes it readable (log 2). -/
theorem numbers_writeMem {s : State} (hwf : s.mem.wf = true) (a : Addr) (v : Word) :
    (s.writeMem a v).numbers = s.numbers.store a.toNat v.toNat := by
  have hmem : ∀ c, ((s.mem.write a.toNat v).read c).toNat = if c = a.toNat then v.toNat else (s.mem.read c).toNat := by
    intro c
    split
    next hc => rw [hc, read_write_same hwf]
    next hc => rw [read_write_of_ne s.mem v hc]
  exact congrArg (fun m => { s.numbers with mem := m }) (funext hmem)

/-- Commit (40_cycle.md R86). -/
theorem numbers_commit (n : Word) (s : State) : (commit n s).numbers = s.numbers.commit s.pc.toNat n.toNat :=
  congrArg (fun x => { (commit n s).numbers with x := x }) (numbers_x_of_set (d := 0) (commit_x n s))

/-! ## The ways an instruction ends, on numbers -/

/-- The answer is a next state that reads as `S`. -/
def AnswersNumbers (o : Host.Outcome State Fault Refusal) (S : Numbers) : Prop := ∃ t, o = .next t ∧ t.numbers = S

theorem jumpTo_answers (n : Word) (s : State) :
    AnswersNumbers (jumpTo n s) (s.numbers.commit s.pc.toNat n.toNat) :=
  ⟨_, jumpTo_eq n s, numbers_commit n s⟩

theorem retire_answers (s : State) : AnswersNumbers (retire s) (s.numbers.retire s.pc.toNat) :=
  ⟨_, retire_eq s, by rw [numbers_commit, fallThrough_toNat, Numbers.retire]⟩

theorem writeBack_answers (d : Reg) (v : Word) (s : State) :
    AnswersNumbers (writeBack d v s) ((s.numbers.put d v.toNat).retire s.pc.toNat) := by
  have hretire := retire_answers (s.writeReg d v)
  rwa [writeReg_pc, numbers_writeReg] at hretire

theorem setIfLess_toNat (v w : Word) : (setIfLess v w).toNat = if v.toNat < w.toNat then 1 else 0 := by
  rw [setIfLess, apply_ite BitVec.toNat]
  rfl

/-- The sum of R101 and R120, modulo 65536. -/
theorem add_toNat_eq_add (v w : Word) : (v + w).toNat = (v.toNat + w.toNat) % 65536 := BitVec.toNat_add v w

/-- The difference of R102, `va + 65536 - vb` modulo 65536. -/
theorem sub_toNat_eq_add_sub (v w : Word) : (v - w).toNat = (v.toNat + 65536 - w.toNat) % 65536 := by
  have hw := w.isLt
  rw [BitVec.toNat_sub]
  omega

/-- Every meaning has the effect on numbers that R91 gives the instruction. -/
theorem exec_answers {s : State} (hinv : s.Inv) (i : Instr) : AnswersNumbers (exec i s) (s.numbers.exec i) := by
  obtain ⟨hzero, hwf, -⟩ := hinv
  have hpc : s.numbers.pc = s.pc.toNat := rfl
  cases i with
  | add | sub | or | and | slt | addi | slti =>
    simp only [Numbers.exec, numbers_x hzero, ← add_toNat_eq_add, ← sub_toNat_eq_add_sub, ← BitVec.toNat_or,
      ← BitVec.toNat_and, ← setIfLess_toNat]
    exact writeBack_answers ..
  | lw d a imm =>
    simp only [Numbers.exec, numbers_x hzero, ← effectiveAddr_toNat]
    exact writeBack_answers ..
  | sw b a imm =>
    simp only [Numbers.exec, numbers_x hzero, ← effectiveAddr_toNat, ← numbers_writeMem hwf]
    exact retire_answers ..
  | j target =>
    rw [Numbers.exec, ← zext13_toNat]
    exact jumpTo_answers ..
  | jal target =>
    have hjump := jumpTo_answers (zext13 target) (s.writeReg 7 (fallThrough s.pc))
    rwa [writeReg_pc, numbers_writeReg, fallThrough_toNat, zext13_toNat] at hjump
  | jr a =>
    rw [Numbers.exec, numbers_x hzero, ← jrTarget_toNat]
    exact jumpTo_answers ..
  | jeq a b off =>
    rw [Numbers.exec, numbers_x hzero, numbers_x hzero]
    by_cases heq : s.readReg a = s.readReg b
    · rw [if_pos (congrArg BitVec.toNat heq), hpc, ← branchTarget_toNat, exec, execJeq, if_pos heq]
      exact jumpTo_answers ..
    · rw [if_neg fun e => heq (BitVec.eq_of_toNat_eq e), exec, execJeq, if_neg heq]
      exact retire_answers s
  | reservedSub0101 | reservedSub0110 | reservedSub0111 | reservedSub1001 | reservedSub1010 | reservedSub1011
  | reservedSub1100 | reservedSub1101 | reservedSub1110 | reservedSub1111 => exact retire_answers s

/-- Settles O37: the dispatch of R91 selects the decoded instruction, whose meaning has the effect R91 gives it. -/
theorem stepIsTheSpecsStep : Obligations.StepIsTheSpecsStep := by
  intro s hinv hrunning
  obtain ⟨i, hdecode⟩ := everyWordDecodes s.fetch
  rw [step_of_fetchDecode hrunning hdecode, numbersStep_of_decode (numbers_fetch s) hdecode]
  exact exec_answers hinv i

end Sys2Proof.Machine
end

