-- ==== Sys2Proof/Proofs/AluRegister.lean ====
section
/-! The register-register ALU instructions (41_alu_register.md R101 to R105). They share the format RRR and the way they
end, a write of the result to `regDst`, and differ in the sub-code and in the value written. -/

namespace Sys2Proof.Machine

/-- The fields of format RRR are what the decoder reads off the word (30_encoding.md R61). -/
theorem fieldsRRR_iff {w : Word} {d a b : Reg} : FieldsRRR w d a b ↔ a = regAOf w ∧ b = regBOf w ∧ d = regDstOf w := by
  simp only [FieldsRRR, ← regAOf_val, ← regBOf_val, ← regDstOf_val, Fin.ext_iff]

/-- The words of an ADD-class instruction of format RRR: its sub-code under opcode 000 (R68), and its operands in their
fields. -/
theorem decode_rrr_iff {w m : Word} {i : Instr} {d a b : Reg} {sub : BitVec 4} (hi : encode i = encodeRRR a b d sub)
    (hm : m = sub.setWidth 16) : decode w = .ok i ↔ w &&& 0xE00F#16 = m ∧ FieldsRRR w d a b := by
  rw [decode_eq_ok_iff, hi, hm, fieldsRRR_iff]
  constructor
  · rintro rfl
    exact ⟨and_subMask_eq_iff.mpr (by simp), by simp⟩
  · rintro ⟨hmask, rfl, rfl, rfl⟩
    obtain ⟨hop, hsub⟩ := and_subMask_eq_iff.mp hmask
    exact (encodeRRR_fields hop hsub).symm

/-- What an instruction that writes a register back does, and what it leaves unchanged (40_cycle.md R83, R85, R86). -/
theorem writeBack_writes (d : Reg) (v : Word) (s : State) :
    ∃ t, writeBack d v s = .next t ∧ (d ≠ 0 → t.readReg d = v) ∧
      WritesOnly d s t ∧ KeepsMemory s t ∧ FallsThrough s t :=
  ⟨_, writeBack_eq d v s, fun hd => by rw [readReg_commit, readReg_writeReg_same s v hd],
    writesOnly_commit_writeReg .., keepsMemory_of_writeBack (writeBack_eq d v s),
    fallsThrough_commit s (writeReg_pc ..)⟩

/-- Settles O6: the value ADD writes back is the sum of two words. -/
theorem addWritesTheSum : Obligations.AddWritesTheSum := by
  refine ⟨fun w d a b => decode_rrr_iff rfl rfl, fun d a b s => ?_⟩
  obtain ⟨t, hexec, hresult, hframe⟩ := writeBack_writes d (s.readReg a + s.readReg b) s
  exact ⟨t, hexec, fun hd => by rw [hresult hd, add_toNat_eq_add], hframe⟩

/-- Settles O7: the value SUB writes back is the difference of two words. -/
theorem subWritesTheDifference : Obligations.SubWritesTheDifference := by
  refine ⟨fun w d a b => decode_rrr_iff rfl rfl, fun d a b s => ?_⟩
  obtain ⟨t, hexec, hresult, hframe⟩ := writeBack_writes d (s.readReg a - s.readReg b) s
  exact ⟨t, hexec, fun hd => by rw [hresult hd, sub_toNat_eq_add_sub], hframe⟩

/-- Settles O8: the value OR writes back is the OR of two words, which acts bit by bit. -/
theorem orWritesTheBitwiseOr : Obligations.OrWritesTheBitwiseOr := by
  refine ⟨fun w d a b => decode_rrr_iff rfl rfl, fun d a b s => ?_⟩
  obtain ⟨t, hexec, hresult, hframe⟩ := writeBack_writes d (s.readReg a ||| s.readReg b) s
  exact ⟨t, hexec, fun hd k => by rw [hresult hd, BitVec.getLsbD_or], hframe⟩

/-- Settles O9: the value AND writes back is the AND of two words, which acts bit by bit. -/
theorem andWritesTheBitwiseAnd : Obligations.AndWritesTheBitwiseAnd := by
  refine ⟨fun w d a b => decode_rrr_iff rfl rfl, fun d a b s => ?_⟩
  obtain ⟨t, hexec, hresult, hframe⟩ := writeBack_writes d (s.readReg a &&& s.readReg b) s
  exact ⟨t, hexec, fun hd k => by rw [hresult hd, BitVec.getLsbD_and], hframe⟩

/-- Settles O10: the value SLT writes back is the comparison of two words as numbers. -/
theorem sltWritesTheUnsignedComparison : Obligations.SltWritesTheUnsignedComparison := by
  refine ⟨fun w d a b => decode_rrr_iff rfl rfl, fun d a b s => ?_⟩
  obtain ⟨t, hexec, hresult, hframe⟩ := writeBack_writes d (setIfLess (s.readReg a) (s.readReg b)) s
  exact ⟨t, hexec, fun hd => by rw [hresult hd, setIfLess_toNat], hframe⟩

end Sys2Proof.Machine
end

