-- ==== Sys2Proof/Proofs/AluImmediate.lean ====
section
/-! The register-immediate ALU instructions (42_alu_immediate.md R120, R121). They share the format RRI and the write of
the result to `regDst`, and differ in the opcode and in the value written. -/

namespace Sys2Proof.Machine

/-- The mask 0xE000 keeps the opcode. -/
theorem and_opcodeMask_eq_iff {w m : Word} {opcode : BitVec 3} (hm : m.toNat = opcode.toNat * 8192) :
    w &&& 0xE000#16 = m ↔ opcodeOf w = opcode := by
  rw [BitVec.toNat_eq, BitVec.toNat_eq, and_opcodeMask_toNat, opcodeOf_toNat, hm]
  omega

/-- The fields of format RRI are what the decoder reads off the word (30_encoding.md R62). -/
theorem fieldsRRI_iff {w : Word} {a r : Reg} {imm : Imm7} :
    FieldsRRI w a r imm ↔ a = regAOf w ∧ r = regBOf w ∧ imm = imm7Of w := by
  simp only [FieldsRRI, ← regAOf_val, ← regBOf_val, ← imm7Of_toNat, Fin.ext_iff, BitVec.toNat_eq]

/-- The words of an instruction of format RRI: its opcode (R67), and its operands in their fields. -/
theorem decode_rri_iff {w m : Word} {i : Instr} {opcode : BitVec 3} {a r : Reg} {imm : Imm7}
    (hi : encode i = encodeRRI opcode a r imm) (hm : m.toNat = opcode.toNat * 8192) :
    decode w = .ok i ↔ w &&& 0xE000#16 = m ∧ FieldsRRI w a r imm := by
  rw [decode_eq_ok_iff, hi, and_opcodeMask_eq_iff hm, fieldsRRI_iff]
  constructor
  · rintro rfl
    simp
  · rintro ⟨hop, rfl, rfl, rfl⟩
    exact (encodeRRI_fields (congrArg BitVec.toNat hop)).symm

/-- A word plus a sign-extended immediate is the integer sum, modulo 65536 (R120). -/
theorem add_sext7_toNat (v : Word) (imm : Imm7) :
    ((v + sext7 imm).toNat : Int) = (v.toNat + immValue imm) % 65536 := by
  have hsext := sext7_toNat_eq_immValue imm
  rw [add_toNat_eq_add]
  omega

/-- The comparison with a sign-extended immediate is that with the immediate modulo 65536 (R121). -/
theorem setIfLess_sext7_toNat (v : Word) (imm : Imm7) :
    (setIfLess v (sext7 imm)).toNat = if (v.toNat : Int) < immValue imm % 65536 then 1 else 0 := by
  simp only [setIfLess_toNat, ← sext7_toNat_eq_immValue, Int.ofNat_lt]

/-- Settles O12: the value ADDI writes back is the sum of a word and the sign-extended immediate. -/
theorem addiAddsTheSignedImmediate : Obligations.AddiAddsTheSignedImmediate := by
  refine ⟨fun w d a imm => decode_rri_iff rfl rfl, fun d a imm s => ?_⟩
  obtain ⟨t, hexec, hresult, hframe⟩ := writeBack_writes d (s.readReg a + sext7 imm) s
  exact ⟨t, hexec, fun hd => by rw [hresult hd, add_sext7_toNat], hframe⟩

/-- Settles O13: the value SLTI writes back is the comparison of a word with the sign-extended immediate. -/
theorem sltiComparesWithTheWrappedImmediate : Obligations.SltiComparesWithTheWrappedImmediate := by
  refine ⟨fun w d a imm => decode_rri_iff rfl rfl, fun d a imm s => ?_⟩
  obtain ⟨t, hexec, hresult, hframe⟩ := writeBack_writes d (setIfLess (s.readReg a) (sext7 imm)) s
  exact ⟨t, hexec, fun hd => by rw [hresult hd, setIfLess_sext7_toNat], hframe⟩

end Sys2Proof.Machine
end

