-- ==== Sys2Proof/Proofs/Control.lean ====
section
/-! Control transfer (43_control.md R140 to R143). Every transfer ends in Commit of its target, JAL after the write
of the link; a call and a return compose. -/

namespace Sys2Proof.Machine

/-! ## The words -/

/-- The words of an instruction of format J: its opcode (R67), and its target in bits 12..0 (30_encoding.md R63). -/
theorem decode_jFormat_iff {w m : Word} {i : Instr} {opcode : BitVec 3} {target : Imm13}
    (hi : encode i = encodeJ opcode target) (hm : m.toNat = opcode.toNat * 8192) :
    decode w = .ok i ↔ w &&& 0xE000#16 = m ∧ target.toNat = w.toNat % 8192 := by
  rw [decode_eq_ok_iff, hi, and_opcodeMask_eq_iff hm, ← imm13Of_toNat, ← BitVec.toNat_eq]
  constructor
  · rintro rfl
    simp
  · rintro ⟨hop, rfl⟩
    exact (encodeJ_fields (congrArg BitVec.toNat hop)).symm

/-- The words of JR, whatever stands in bits 9..4 (30_encoding.md R70). -/
theorem decode_jr_iff {w : Word} {a : Reg} :
    (∃ ignored, decode w = .ok (.jr a ignored)) ↔ w &&& 0xE00F#16 = 0x0008#16 ∧ a.val = w.toNat / 1024 % 8 := by
  rw [← regAOf_val, ← Fin.ext_iff]
  constructor
  · rintro ⟨ignored, hdecode⟩
    obtain rfl := decode_eq_ok_iff.mp hdecode
    exact ⟨and_subMask_eq_iff (sub := 0b1000#4).mpr (by simp), (regAOf_encode_jr a ignored).symm⟩
  · rintro ⟨hmask, rfl⟩
    exact ⟨_, decode_jr hmask⟩

/-! ## What each transfer answers -/

theorem exec_j (target : Imm13) (s : State) : exec (.j target) s = .next (commit (zext13 target) s) := rfl

theorem exec_jal (target : Imm13) (s : State) :
    exec (.jal target) s = .next (commit (zext13 target) (s.writeReg 7 (fallThrough s.pc))) := rfl

theorem exec_jr (a : Reg) (ignored : BitVec 6) (s : State) :
    exec (.jr a ignored) s = .next (commit (jrTarget (s.readReg a)) s) := rfl

theorem exec_jeq_of_eq {a b : Reg} {s : State} (h : s.readReg a = s.readReg b) (off : Imm7) :
    exec (.jeq a b off) s = .next (commit (branchTarget s.pc off) s) := if_pos h

theorem exec_jeq_of_ne {a b : Reg} {s : State} (h : s.readReg a ≠ s.readReg b) (off : Imm7) :
    exec (.jeq a b off) s = .next (commit (fallThrough s.pc) s) := if_neg h

/-! ## The four transfers -/

/-- Settles O17: J is Commit of its target. -/
theorem jumpGoesToTheTarget : Obligations.JumpGoesToTheTarget :=
  ⟨fun _ _ => decode_jFormat_iff rfl rfl, fun target s =>
    ⟨_, exec_j target s, zext13_toNat target, exec_haltBit (exec_j target s), keepsRegs_commit _ s,
      readMem_commit _ s⟩⟩

/-- Settles O18: JAL is a write of the link, then Commit of its target. -/
theorem jalLinksAndJumps : Obligations.JalLinksAndJumps := by
  refine ⟨fun _ _ => decode_jFormat_iff rfl rfl, fun target s => ?_⟩
  refine ⟨_, exec_jal target s, ?link, zext13_toNat target, exec_haltBit (exec_jal target s),
    writesOnly_commit_writeReg .., ?memory⟩
  case link => rw [readReg_commit, readReg_writeReg_same s _ (by decide), fallThrough_toNat]
  case memory => exact fun c => by rw [readMem_commit, readMem_writeReg]

/-- Settles O19: JR is Commit of its register, reduced modulo 8192. -/
theorem jrGoesToTheRegister : Obligations.JrGoesToTheRegister :=
  ⟨fun _ _ => decode_jr_iff, fun a ignored s =>
    ⟨_, exec_jr a ignored s, jrTarget_toNat _, exec_haltBit (exec_jr a ignored s), keepsRegs_commit _ s,
      readMem_commit _ s⟩⟩

/-- Settles O20: JEQ is Commit of the branch target or of the default `next_pc`, as its registers are equal or not. -/
theorem jeqBranchesOnEqual : Obligations.JeqBranchesOnEqual := by
  refine ⟨fun _ _ _ _ => decode_rri_iff rfl rfl, fun a b off s => ?_⟩
  by_cases heq : s.readReg a = s.readReg b
  · refine ⟨_, exec_jeq_of_eq heq off, fun _ => ?_, fun hne => absurd heq hne, exec_haltBit (exec_jeq_of_eq heq off),
      keepsRegs_commit _ s, readMem_commit _ s⟩
    rw [commit_pc, branchTarget_toNat_eq_immValue]
    omega
  · exact ⟨_, exec_jeq_of_ne heq off, fun h => absurd h heq, fun _ => fallsThrough_commit s rfl,
      exec_haltBit (exec_jeq_of_ne heq off), keepsRegs_commit _ s, readMem_commit _ s⟩

/-! ## Call and return -/

/-- Settles O35: JR reduces the link that JAL left in `$7`, and 8192 divides 65536. -/
theorem callThenReturn : Obligations.CallThenReturn := by
  intro s target ignored
  obtain ⟨t, hcall, hlink, -⟩ := jalLinksAndJumps.2 target s
  obtain ⟨u, hreturn, hpc, -⟩ := jrGoesToTheRegister.2 7 ignored t
  refine ⟨t, u, hcall, hreturn, ?_⟩
  rw [hpc, hlink]
  omega

end Sys2Proof.Machine
end

