-- ==== Sys2Proof/Proofs/LoadStore.lean ====
section
/-! Loads and stores (44_load_store.md R160 to R162): the one addressing mode, and the two instructions that use it. -/

namespace Sys2Proof.Machine

/-! ## The effective address -/

/-- The effective address is base plus signed offset: 8192 divides 65536, so the reduction of the sum loses nothing
(R160). -/
theorem effectiveAddr_toNat_eq_immValue (base : Word) (imm : Imm7) :
    ((effectiveAddr base imm).toNat : Int) = (base.toNat + immValue imm) % 8192 := by
  have hsext := sext7_toNat_eq_immValue imm
  rw [effectiveAddr_toNat]
  omega

/-- An offset is a 7-bit two's complement number (00_scope.md R11). -/
theorem immValue_range (imm : Imm7) : -64 ≤ immValue imm ∧ immValue imm ≤ 63 := by
  have hlt : imm.toNat < 128 := imm.isLt
  rw [immValue]
  split <;> omega

/-- The address is determined by its number modulo 8192. -/
theorem eq_effectiveAddr {base : Word} {imm : Imm7} {ea : Addr}
    (h : (ea.toNat : Int) = (base.toNat + immValue imm) % 8192) : ea = effectiveAddr base imm :=
  BitVec.eq_of_toNat_eq (Int.ofNat_inj.mp (h.trans (effectiveAddr_toNat_eq_immValue base imm).symm))

/-- Settles O14: from base 0 an offset that is not negative is itself the address, and a negative one wraps to the end
of memory. -/
theorem effectiveAddressWraps : Obligations.EffectiveAddressWraps := by
  refine ⟨effectiveAddr_toNat_eq_immValue, fun imm => ?_⟩
  have haddr : ((effectiveAddr 0#16 imm).toNat : Int) = (0 + immValue imm) % 8192 :=
    effectiveAddr_toNat_eq_immValue 0#16 imm
  obtain ⟨hlow, hhigh⟩ := immValue_range imm
  by_cases hneg : immValue imm < 0
  · right
    omega
  · left
    omega

/-! ## The two instructions -/

/-- Settles O15: the value LW writes back is the word at the effective address. -/
theorem lwLoadsTheWord : Obligations.LwLoadsTheWord := by
  refine ⟨fun w d a imm => decode_rri_iff rfl rfl, fun d a imm s => ?_⟩
  obtain ⟨t, hexec, hresult, hframe⟩ := writeBack_writes d (s.readMem (effectiveAddr (s.readReg a) imm)) s
  exact ⟨t, hexec, fun hd ea hea => by rw [hresult hd, eq_effectiveAddr hea], hframe⟩

/-- Neither a store nor Commit changes a register a program can read. -/
theorem keepsRegs_commit_writeMem (n : Word) (a : Addr) (v : Word) (s : State) :
    KeepsRegs s (commit n (s.writeMem a v)) :=
  ⟨fun r => by rw [readReg_commit, readReg_writeMem], commit_cell_zero n _⟩

/-- Settles O16: SW is a memory write at the effective address, then Commit of the default `next_pc`. -/
theorem swStoresTheWord : Obligations.SwStoresTheWord := by
  refine ⟨fun w b a imm => decode_rri_iff rfl rfl, fun b a imm s => ?_⟩
  refine ⟨_, exec_sw b a imm s, effectiveAddr_toNat_eq_immValue _ imm, ?stored, ?others, keepsRegs_commit_writeMem ..,
    fallsThrough_commit s (writeMem_pc ..)⟩
  case stored => exact fun hwf => by rw [readMem_commit, readMem_writeMem_same hwf]
  case others => exact fun c hc => by rw [readMem_commit, readMem_writeMem_of_ne s _ hc]

end Sys2Proof.Machine
end

