-- ==== Sys2Proof/Proofs/Safety.lean ====
section
/-! Safety of runs (60_exceptions.md R180, R184): the stop of a halted core is the only end a run can meet. -/

namespace Sys2Proof.Machine

/-- Settles O38, by induction on the number of steps: a halted core ends the run in its stop, and any other takes its
first step to a state from which the rest of the run is safe. -/
theorem everyRunIsSafe : Obligations.EveryRunIsSafe := by
  intro s n
  induction n generalizing s with
  | zero => exact .inl ⟨s, run_zero s⟩
  | succ n ih =>
    obtain ⟨hcompletes, hstops⟩ := enabledStepsComplete s
    cases hhalted : s.halted with
    | true => exact .inr (run_succ_of_fault (hstops hhalted) n)
    | false =>
      obtain ⟨t, hstep⟩ := hcompletes hhalted
      rw [run_succ_of_next hstep]
      exact ih t

end Sys2Proof.Machine
end

/-! The host's side (70_reset_and_hazards.md R202, R203, R205): which images it accepts, and what it reads of a halted
core. -/

namespace Sys2Proof.Machine

/-! ## The image check -/

/-- One line is accepted when it stands at the address due and within memory; then the rest decides (R203). -/
theorem acceptFrom_cons_eq_some_iff {n a : Nat} {w : Word} {rest : List (Nat × Word)} {image : List Word} :
    acceptFrom n ((a, w) :: rest) = some image ↔
      (a = n ∧ n < 8192) ∧ ∃ ws, acceptFrom (n + 1) rest = some ws ∧ w :: ws = image := by
  rw [acceptFrom]
  split
  next hline => rw [Option.map_eq_some_iff, and_iff_right hline]
  next hline => exact iff_of_false nofun fun h => hline h.1

/-- The image check from any address on, by induction on the lines. -/
theorem acceptFrom_eq_some_iff {n : Nat} (hn : n ≤ 8192) (lines : List (Nat × Word)) (image : List Word) :
    acceptFrom n lines = some image ↔
      lines.map Prod.fst = List.range' n lines.length ∧ n + lines.length ≤ 8192 ∧ image = lines.map Prod.snd := by
  induction lines generalizing n image with
  | nil => simp [acceptFrom, hn, eq_comm]
  | cons line rest ih =>
    obtain ⟨a, w⟩ := line
    rw [acceptFrom_cons_eq_some_iff, List.map_cons, List.map_cons, List.length_cons, List.range'_succ, List.cons.injEq]
    constructor
    · rintro ⟨⟨rfl, hlt⟩, ws, hws, rfl⟩
      obtain ⟨haddrs, hlen, rfl⟩ := (ih hlt ws).mp hws
      exact ⟨⟨rfl, haddrs⟩, by omega, rfl⟩
    · rintro ⟨⟨rfl, haddrs⟩, hlen, rfl⟩
      have hlt : a < 8192 := by omega
      exact ⟨⟨rfl, hlt⟩, _, (ih hlt _).mpr ⟨haddrs, by omega, rfl⟩, rfl⟩

/-- Settles O41: the image check begins at address 0. -/
theorem acceptedImagesAreConsecutive : Obligations.AcceptedImagesAreConsecutive := by
  intro lines image
  rw [acceptImage, acceptFrom_eq_some_iff (Nat.zero_le _), Nat.zero_add, List.range_eq_range']

/-! ## The read of the final state -/

/-- The host reads nothing of a core that has not halted (R202). -/
theorem finalReport_of_running {s : State} (h : s.halted = false) (k : Nat) : finalReport k s = none :=
  if_neg fun hread => Bool.false_ne_true (h.symm.trans hread.1)

/-- The read of a halted core, with the display count within memory (R205). -/
theorem finalReport_of_halted {k : Nat} {s : State} (h : s.halted = true) (hk : k ≤ 8192) :
    finalReport k s =
      some { pc := s.pc, regs := (List.finRange 8).map s.readReg, mem := (List.range k).map s.mem.read } :=
  if_pos ⟨h, hk⟩

/-- Settles O43: entry `i` of either list of the report is the read at `i`. -/
theorem hostReadsTheHaltedState : Obligations.HostReadsTheHaltedState := by
  refine fun k s hk => ⟨fun h => finalReport_of_running h k, fun h => ?_⟩
  refine ⟨_, finalReport_of_halted h hk, rfl, fun i => ?regs, by simp, by simp, fun a ha => ?mem⟩
  case regs => simp
  case mem => rw [List.getElem?_map, List.getElem?_range ha, Option.map_some, State.readMem]

end Sys2Proof.Machine

-- ==== Sys2Proof/Proofs/SpecWords.lean ====
section
/-! The words written out in spec/ (30_encoding.md R72, the examples of 41 to 44, 95_test_vectors.md section 3). -/

namespace Sys2Proof

/-- Settles O1: each word is the encoding, field by field, of the instruction given for it. -/
theorem specWordsDecode : Obligations.SpecWordsDecode := by
  simp only [Obligations.SpecWordsDecode, decode_eq_ok_iff]
  decide

end Sys2Proof
end
